-- ==== Sys2Proof/Word.lean ====
section
/-! DEFINITION. The byte and the word of CORE-16 (00_scope.md R3, R6). -/

namespace Sys2Proof

/-- A byte: 8 bits, a value 0..255 (00_scope.md R6; 92_eei_decisions.md D21). -/
abbrev Byte := BitVec 8

/-- A word: 16 bits, a value 0..65535 (00_scope.md R6). Instruction words, AC and memory words
are words (00_scope.md R3, WORD_WIDTH). -/
abbrev Word := BitVec 16

end Sys2Proof
end

