-- ==== Sys2Proof/Syntax.lean ====
section
/-! DEFINITION. The instructions of CORE-16, one constructor for each row of the opcode map
(30_encoding.md R85), and the statements of its assembly notation (30_encoding.md R90). -/

namespace Sys2Proof

/-- An instruction. Every row carries the 12-bit operand field as a natural number, also where
the row ignores it (30_encoding.md R83), so that an instruction keeps every bit of its word.
`Instr.WellFormed` bounds the operand by 4095 (30_encoding.md R82; log 19). -/
inductive Instr where
  /-- Opcode 0x0, the no-op (43_system.md R130). -/
  | start (operand : Nat)
  /-- Opcode 0x1, load immediate (40_load_store.md R100). -/
  | load (operand : Nat)
  /-- Opcode 0x2, load from memory (40_load_store.md R101). -/
  | loadm (operand : Nat)
  /-- Opcode 0x3, store to memory (40_load_store.md R102). -/
  | store (operand : Nat)
  /-- Opcode 0x4, signed compare with memory (41_compare_branch.md R110). -/
  | cmpm (operand : Nat)
  /-- Opcode 0x5, jump if FLAG (41_compare_branch.md R111). -/
  | cjmp (operand : Nat)
  /-- Opcode 0x6, jump (41_compare_branch.md R112). -/
  | jmp (operand : Nat)
  /-- Opcode 0x7, add immediate (42_arithmetic.md R121). -/
  | add (operand : Nat)
  /-- Opcode 0x8, add memory (42_arithmetic.md R122). -/
  | addm (operand : Nat)
  /-- Opcode 0x9, subtract immediate (42_arithmetic.md R123). -/
  | sub (operand : Nat)
  /-- Opcode 0xA, subtract memory (42_arithmetic.md R124). -/
  | subm (operand : Nat)
  /-- Opcode 0xB, multiply by immediate (42_arithmetic.md R125). -/
  | mul (operand : Nat)
  /-- Opcode 0xC, multiply by memory (42_arithmetic.md R126). -/
  | mulm (operand : Nat)
  /-- Opcode 0xD, emit AC (43_system.md R131). -/
  | disp (operand : Nat)
  /-- Opcode 0xE, end the run (43_system.md R132). -/
  | halt (operand : Nat)
  /-- Opcode 0xF, the illegal value of the opcode field (43_system.md R133). -/
  | invalid (operand : Nat)
  deriving DecidableEq, Repr

/-- The three roles the operand plays, fixed by the opcode (30_encoding.md R83). -/
inductive OperandRole where
  | immediate
  | wordIndex
  | ignored
  deriving DecidableEq, Repr

/-- The fifteen mnemonics an assembly statement may name (30_encoding.md R85, R90); the illegal
opcode 0xF has none. -/
inductive Mnemonic where
  | start | load | loadm | store | cmpm | cjmp | jmp | add
  | addm | sub | subm | mul | mulm | disp | halt
  deriving DecidableEq, Repr

/-- The operand of an assembly statement as it is written (30_encoding.md R90). -/
inductive SourceOperand where
  /-- Nothing is written. -/
  | absent
  /-- `#n`. -/
  | hash (n : Nat)
  /-- `@n`, a word index and not a byte address. -/
  | slot (n : Nat)
  deriving DecidableEq, Repr

/-- A statement of the assembly notation of 30_encoding.md R90. -/
inductive SourceLine where
  /-- A mnemonic with its operand. -/
  | statement (m : Mnemonic) (o : SourceOperand)
  /-- `.word v`, a literal data word. -/
  | dataWord (v : Nat)
  deriving DecidableEq, Repr

end Sys2Proof
end

