-- ==== Sys2Proof/WellFormed.lean ====
section
/-! DEFINITION. Which instructions have an encoding and which assembly statements are legal. -/

namespace Sys2Proof

/-- The operand field of an instruction (30_encoding.md R81). -/
abbrev Instr.operand : Instr → Nat
  | .start n => n
  | .load n => n
  | .loadm n => n
  | .store n => n
  | .cmpm n => n
  | .cjmp n => n
  | .jmp n => n
  | .add n => n
  | .addm n => n
  | .sub n => n
  | .subm n => n
  | .mul n => n
  | .mulm n => n
  | .disp n => n
  | .halt n => n
  | .invalid n => n

/-- An instruction is well-formed when its operand fits the 12-bit field: an unsigned number
0..4095 (30_encoding.md R82). -/
abbrev Instr.WellFormed (i : Instr) : Prop := i.operand ≤ 4095

/-- The operand role of a mnemonic (30_encoding.md R83). -/
def Mnemonic.role : Mnemonic → OperandRole
  | .load | .add | .sub | .mul => .immediate
  | .loadm | .store | .cmpm | .cjmp | .jmp | .addm | .subm | .mulm => .wordIndex
  | .start | .disp | .halt => .ignored

/-- A statement is legal when its operand is written the way its mnemonic's role asks, with
0 ≤ n ≤ 4095, and a data word is in 0..65535 (30_encoding.md R90). -/
def SourceLine.wellFormed : SourceLine → Bool
  | .statement m .absent => m.role == .ignored
  | .statement m (.hash n) => m.role == .immediate && decide (n ≤ 4095)
  | .statement m (.slot n) => m.role == .wordIndex && decide (n ≤ 4095)
  | .dataWord v => decide (v ≤ 65535)

end Sys2Proof
end

