-- ==== Sys2Proof/Decode.lean ====
section
/-! DEFINITION. Bits to instructions and back: the byte order of a word (20_memory.md R58), the
two fields (30_encoding.md R81), the opcode map (30_encoding.md R85), and after them the encoder
and the assembler of the notation of 30_encoding.md R90. -/

namespace Sys2Proof

/-- `w[7:0]`, the byte stored at the lower address (20_memory.md R58). -/
def lowByte (w : Word) : Byte := w.extractLsb' 0 8

/-- `w[15:8]`, the byte stored at the higher address (20_memory.md R58). -/
def highByte (w : Word) : Byte := w.extractLsb' 8 8

/-- The word `lo + 256 * hi` (20_memory.md R52; 92_eei_decisions.md D21). -/
def wordOfBytes (lo hi : Byte) : Word := BitVec.ofNat 16 (lo.toNat + 256 * hi.toNat)

/-- `opcode = (instr >> 12) & 0xF` (30_encoding.md R81). -/
def opcodeField (w : Word) : Nat := ((w >>> 12) &&& 0xF#16).toNat

/-- `operand = instr & 0xFFF`, unsigned 0..4095 (30_encoding.md R81, R82). -/
def operandField (w : Word) : Nat := (w &&& 0xFFF#16).toNat

/-- The opcode map: the opcode value alone selects the row, and "any other nibble" is the
illegal row (30_encoding.md R85; 43_system.md R133). -/
def instrOfFields (opcode operand : Nat) : Instr :=
  match opcode with
  | 0x0 => .start operand
  | 0x1 => .load operand
  | 0x2 => .loadm operand
  | 0x3 => .store operand
  | 0x4 => .cmpm operand
  | 0x5 => .cjmp operand
  | 0x6 => .jmp operand
  | 0x7 => .add operand
  | 0x8 => .addm operand
  | 0x9 => .sub operand
  | 0xA => .subm operand
  | 0xB => .mul operand
  | 0xC => .mulm operand
  | 0xD => .disp operand
  | 0xE => .halt operand
  | _ => .invalid operand

/-- Decoding one instruction word is total and has no side effect (30_encoding.md R89). -/
def decodeWord (w : Word) : Instr := instrOfFields (opcodeField w) (operandField w)

/-- Why a sequence of bytes holds no instruction. -/
inductive DecodeReject where
  /-- Fewer than the two bytes that every instruction takes (30_encoding.md R80). -/
  | truncated
  deriving DecidableEq, Repr

/-- Decoding at the head of a sequence of bytes: it consumes exactly two bytes, the low byte
first (30_encoding.md R80), and gives the rest back. -/
def decode : List Byte → Except DecodeReject (Instr × List Byte)
  | lo :: hi :: rest => .ok (decodeWord (wordOfBytes lo hi), rest)
  | _ => .error .truncated

/-- The opcode value of an instruction's row (30_encoding.md R85). -/
def Instr.opcode : Instr → Nat
  | .start _ => 0x0
  | .load _ => 0x1
  | .loadm _ => 0x2
  | .store _ => 0x3
  | .cmpm _ => 0x4
  | .cjmp _ => 0x5
  | .jmp _ => 0x6
  | .add _ => 0x7
  | .addm _ => 0x8
  | .sub _ => 0x9
  | .subm _ => 0xA
  | .mul _ => 0xB
  | .mulm _ => 0xC
  | .disp _ => 0xD
  | .halt _ => 0xE
  | .invalid _ => 0xF

/-- The word of a well-formed instruction: `word = opcode * 4096 + n` (30_encoding.md R90). -/
def encodeWord (i : Instr) : Word := BitVec.ofNat 16 (i.opcode * 4096 + i.operand)

/-- The two bytes of an instruction in the order memory holds them (20_memory.md R58). -/
def encode (i : Instr) : List Byte := [lowByte (encodeWord i), highByte (encodeWord i)]

/-- The instruction the decoder reads from an instruction of `nbits` bits whose bits are `w`,
numbered as the opcode table numbers them: the two bytes are laid out in memory order and given
to `decode`. Bits at and above `nbits` are 0. -/
def decodeTableWord (nbits w : Nat) : Option Instr :=
  let word : Word := BitVec.ofNat 16 (w % 2 ^ nbits)
  match decode [lowByte word, highByte word] with
  | .ok (i, _) => some i
  | .error _ => none

/-- The instruction of a mnemonic with the operand value `n` (30_encoding.md R85, R90). -/
def Mnemonic.toInstr (m : Mnemonic) (n : Nat) : Instr :=
  match m with
  | .start => .start n
  | .load => .load n
  | .loadm => .loadm n
  | .store => .store n
  | .cmpm => .cmpm n
  | .cjmp => .cjmp n
  | .jmp => .jmp n
  | .add => .add n
  | .addm => .addm n
  | .sub => .sub n
  | .subm => .subm n
  | .mul => .mul n
  | .mulm => .mulm n
  | .disp => .disp n
  | .halt => .halt n

/-- The operand value of a statement, 0 when no operand is written (30_encoding.md R90). -/
def SourceOperand.value : SourceOperand → Nat
  | .absent => 0
  | .hash n => n
  | .slot n => n

/-- The word a statement of the assembly notation stands for (30_encoding.md R90); none for an
illegal statement. -/
def assembleLine (l : SourceLine) : Option Word :=
  if l.wellFormed then
    match l with
    | .statement m o => some (encodeWord (m.toInstr o.value))
    | .dataWord v => some (BitVec.ofNat 16 v)
  else none

end Sys2Proof
end

