-- ==== Sys2Proof/Machine/Flags.lean ====
section
/-! DEFINITION. The signed reading of a word, the narrowing of exact results, and the one flag
computation of CORE-16 (00_scope.md R7; 10_state.md R24; 42_arithmetic.md R120). -/

namespace Sys2Proof.Machine

/-- `signed16(w) = w if w < 32768 else w - 65536` (00_scope.md R7). -/
def signed16 (w : Word) : Int :=
  if w.toNat < 32768 then (w.toNat : Int) else (w.toNat : Int) - 65536

/-- `trunc16(x) = x mod 65536` of an exact integer, negative ones included (00_scope.md R7). -/
def trunc16 (x : Int) : Word := BitVec.ofNat 16 (x % 65536).toNat

/-- FLAG's one computation: `signed16(AC) > signed16(m)`, strict and signed (10_state.md R24;
41_compare_branch.md R110). -/
def compareGreater (ac m : Word) : Bool := decide (signed16 ac > signed16 m)

end Sys2Proof.Machine
end

