-- ==== Sys2Proof/Config.lean ====
section
/-! DEFINITION. The implementation parameters of 00_scope.md R3: those the hardware fixes, those
the spec leaves OPEN (opaque constants: nothing can be proved about their value), and the
configuration inputs that `State.reset` takes. -/

namespace Sys2Proof

/-- MEM_SIZE: the bytes of the one address space (00_scope.md R3; 20_memory.md R40). -/
abbrev Config.memSize : Nat := 65536

/-- NUM_LINES: the lines of the Cache (00_scope.md R3; 20_memory.md R47). -/
abbrev Config.numLines : Nat := 8

/-- BLOCK_SIZE: the bytes of one line (00_scope.md R3; 20_memory.md R47). -/
abbrev Config.blockSize : Nat := 2

/-- MISS_ON_FAULT, an OPEN Boolean parameter: whether a read miss at an out-of-range address is
counted as a miss (20_memory.md R49; 92_eei_decisions.md D10). A free value: log 3. -/
opaque Config.missOnFault : Bool

/-- LOAD_VIA_CACHE, an OPEN Boolean parameter: whether the program load writes through the Cache
(70_reset_and_hazards.md R171; 92_eei_decisions.md D4). A free value: log 4. -/
opaque Config.loadViaCache : Bool

/-- The LOAD_ADDRESS that `State.reset` is constructed with. DESIGN CHOICE, unsafe (log 1): the
spec makes it the constructor's input; 0 is the value of the source's Scenario A. -/
def Config.resetLoadAddress : Nat := 0

/-- The INITIAL_PC that `State.reset` is constructed with. DESIGN CHOICE, unsafe (log 1): the
spec makes it the constructor's input; 0 is the value of the source's Scenario A. -/
def Config.resetInitialPc : Nat := 0

/-- The byte an address that the model's memory does not list reads as. DESIGN CHOICE, unsafe
(log 2): the spec leaves MEM_INIT open (92_eei_decisions.md D3). -/
def Config.unlistedByte : Byte := 0

end Sys2Proof
end

