-- ==== Sys2Proof/Machine/State.lean ====
section
/-! DEFINITION. The whole state of one CORE instance (10_state.md R20), the state construction
leaves (70_reset_and_hazards.md R170), and the reasons the model's step can stop. -/

namespace Sys2Proof.Machine

/-- RUN, the run state (10_state.md R25). -/
inductive RunState where
  | running
  | halted
  | faulted
  deriving DecidableEq, Repr

/-- The two faults the block raises (60_exceptions.md R140). -/
inductive FaultKind where
  /-- A byte access above 65535 (60_exceptions.md R141). -/
  | addressOutOfRange
  /-- Executing a word whose opcode field is 0xF (60_exceptions.md R142). -/
  | invalidOpcode
  deriving DecidableEq, Repr

/-- The record FAULT holds after a fault (10_state.md R26): for AddressOutOfRange code 1 and the
byte address, for InvalidOpcode code 2 and the 16-bit instruction word. -/
structure FaultRecord where
  kind : FaultKind
  code : Nat
  info : Nat
  deriving DecidableEq, Repr

/-- One line of the Cache (10_state.md R28). -/
structure CacheLine where
  valid : Bool
  tag : Nat
  data : Vector Byte Config.blockSize
  deriving DecidableEq, Repr

/-- MEM (10_state.md R30): the bytes that differ from what an unlisted address reads as, in
strictly rising order of address. `Memory.wf` (Machine/Ops.lean) is the canonical form. -/
abbrev Memory := List Host.Cell

/-- The state of one CORE instance: exactly the components of 10_state.md R20. -/
structure State where
  /-- PC, the byte address of the instruction being executed; it never wraps (10_state.md R23). -/
  pc : Nat
  /-- AC, the accumulator (10_state.md R21). -/
  ac : Word
  /-- FLAG (10_state.md R24). -/
  flag : Bool
  /-- RUN (10_state.md R25). -/
  run : RunState
  /-- FAULT (10_state.md R26). -/
  fault : Option FaultRecord
  /-- LOAD_ADDRESS, constant after construction (10_state.md R27). -/
  loadAddress : Nat
  /-- INITIAL_PC, constant after construction (10_state.md R27). -/
  initialPc : Nat
  /-- LINE[0..7] (10_state.md R28). -/
  lines : Vector CacheLine Config.numLines
  /-- HITS, unbounded (10_state.md R29). -/
  hits : Nat
  /-- MISSES, unbounded (10_state.md R29). -/
  misses : Nat
  /-- MEM (10_state.md R30). -/
  mem : Memory
  /-- OUT, the values DISP has emitted, oldest first (10_state.md R31). -/
  out : List Int
  deriving DecidableEq, Repr

/-- Why the model's step gives no next state although the instruction set is not at fault. The
block's own faults are next states whose RUN is faulted (60_exceptions.md R146; log 6). -/
inductive Fault where
  /-- Raised by `step` when RUN is halted: "no resume/restart", no step exists (10_state.md R25,
  60_exceptions.md R147). Safe: the hardware has no step there either. -/
  | stepAfterHalt
  /-- Raised by `step` when RUN is faulted: the same rule. Safe: the hardware has no step there
  either. -/
  | stepAfterFault
  deriving DecidableEq, Repr

/-- Why the model refuses an instruction. -/
inductive Refusal where
  /-- Raised by an arm of `exec` whose instruction has no meaning yet; no arm does so. Safe. -/
  | notModelled (mnemonic : String)
  deriving DecidableEq, Repr

/-- A line at construction: not valid, its tag and data 0 (10_state.md R28;
92_eei_decisions.md D12). -/
def CacheLine.empty : CacheLine :=
  { valid := false, tag := 0, data := Vector.replicate Config.blockSize 0 }

/-- construct: the state right after construction with the given LOAD_ADDRESS, INITIAL_PC and
MEM_INIT (70_reset_and_hazards.md R170). No input is checked (10_state.md R27). -/
def State.construct (loadAddress initialPc : Nat) (memInit : Memory) : State :=
  { pc := initialPc
    ac := 0
    flag := false
    run := .running
    fault := none
    loadAddress := loadAddress
    initialPc := initialPc
    lines := Vector.replicate Config.numLines CacheLine.empty
    hits := 0
    misses := 0
    mem := memInit
    out := [] }

/-- The machine right after reset: construction with the inputs of Config.lean (log 1) and
nothing listed in memory (log 2). -/
def State.reset : State := State.construct Config.resetLoadAddress Config.resetInitialPc []

end Sys2Proof.Machine
end

