-- ==== Sys2Proof/Machine/Ops.lean ====
section
/-! DEFINITION. The named operations over registers, Memory and Cache (20_memory.md R41-R54), and
raising a fault (60_exceptions.md R146). There is no return from a fault (R147). -/

namespace Sys2Proof.Machine

/-! ### Registers, counters, lines and output -/

/-- `PC <- v`, an exact natural number (10_state.md R23). -/
def State.setPc (s : State) (v : Nat) : State := { s with pc := v }

/-- `PC <- PC + 2`, without wrap (10_state.md R23). -/
def State.advance (s : State) : State := s.setPc (s.pc + 2)

/-- `AC <- v` (10_state.md R21). -/
def State.setAc (s : State) (v : Word) : State := { s with ac := v }

/-- `FLAG <- b` (10_state.md R24). -/
def State.setFlag (s : State) (b : Bool) : State := { s with flag := b }

/-- `RUN <- halted` (43_system.md R132). -/
def State.halt (s : State) : State := { s with run := .halted }

/-- `emit(v)` appends v to OUT (10_state.md R31). -/
def State.emit (s : State) (v : Int) : State := { s with out := s.out ++ [v] }

/-- `HITS <- HITS + 1` (20_memory.md R49, R50). -/
def State.countHit (s : State) : State := { s with hits := s.hits + 1 }

/-- `MISSES <- MISSES + 1` (20_memory.md R49, R50). -/
def State.countMiss (s : State) : State := { s with misses := s.misses + 1 }

/-- `if MISS_ON_FAULT: MISSES <- MISSES + 1` (20_memory.md R49; log 3). -/
def State.countMissOnFault (s : State) : State :=
  { s with misses := s.misses + (if Config.missOnFault then 1 else 0) }

/-- `LINE[i] <- l` (20_memory.md R49, R50). -/
def State.setLine (s : State) (i : Fin Config.numLines) (l : CacheLine) : State :=
  { s with lines := s.lines.set i l }

/-- MEM as a whole; used by the byte write only (20_memory.md R43). -/
def State.setMem (s : State) (m : Memory) : State := { s with mem := m }

/-! ### Raising a fault -/

/-- The code of a fault: 1 for AddressOutOfRange, 2 for InvalidOpcode (60_exceptions.md R141,
R142). -/
def FaultKind.code : FaultKind → Nat
  | .addressOutOfRange => 1
  | .invalidOpcode => 2

/-- `raise F(info)`: RUN becomes faulted and FAULT holds the record; nothing else is written, and
nothing already done is undone (60_exceptions.md R146). There is no handler, no saved register
and no vector (R145). -/
def State.takeFault (s : State) (kind : FaultKind) (info : Nat) : State :=
  { s with run := .faulted, fault := some { kind := kind, code := kind.code, info := info } }

/-- What a memory operation comes to: a value, or a fault raised on the way. In both cases `s` is
the state with every effect completed so far (20_memory.md R61). -/
inductive Access (α : Type) where
  | done (v : α) (s : State)
  | raised (kind : FaultKind) (info : Nat) (s : State)

/-- The state an operation leaves, done or raised. -/
def Access.state {α : Type} : Access α → State
  | .done _ s => s
  | .raised _ _ s => s

/-- One operation after another; "a raise stops the sequence where it occurs" (00_scope.md R8). -/
def Access.bind {α β : Type} (x : Access α) (f : α → State → Access β) : Access β :=
  match x with
  | .done v s => f v s
  | .raised kind info s => .raised kind info s

/-- The end of a step that makes one access: the rest of the instruction when the access is done,
the fault when it raises (30_encoding.md R87; 60_exceptions.md R146). -/
def Access.complete {α : Type} (x : Access α) (k : α → State → State) :
    Host.Outcome State Fault Refusal :=
  match x with
  | .done v s => .next (k v s)
  | .raised kind info s => .next (s.takeFault kind info)

/-! ### Memory: the canonical list of cells -/

/-- The byte at an address; an unlisted address reads as `Config.unlistedByte` (log 2). -/
def Memory.read : Memory → Nat → Byte
  | [], _ => Config.unlistedByte
  | (b, v) :: rest, a => if b = a then v else Memory.read rest a

/-- Writes one byte and keeps the canonical form: the entry is removed when the value is what an
unlisted address reads as. -/
def Memory.write : Memory → Nat → Byte → Memory
  | [], a, v => if v = Config.unlistedByte then [] else [(a, v)]
  | (b, w) :: rest, a, v =>
    if a < b then
      if v = Config.unlistedByte then (b, w) :: rest else (a, v) :: (b, w) :: rest
    else if a = b then
      if v = Config.unlistedByte then rest else (a, v) :: rest
    else (b, w) :: Memory.write rest a v

/-- The canonical form from the address `lo` on: addresses strictly rising, all below MEM_SIZE, and
no entry equal to what an unlisted address reads as. -/
def Memory.wfFrom (lo : Nat) : Memory → Bool
  | [] => true
  | (a, v) :: rest =>
    decide (lo ≤ a) && decide (a < Config.memSize) && v != Config.unlistedByte &&
      Memory.wfFrom (a + 1) rest

/-- The canonical form of a memory. -/
def Memory.wf (m : Memory) : Bool := Memory.wfFrom 0 m

/-! ### The Memory's own operations -/

/-- `inRange(a)` is `0 <= a <= 65535` (20_memory.md R41). -/
abbrev inRange (a : Nat) : Prop := a < Config.memSize

/-- RawReadByte (20_memory.md R42). -/
def State.rawReadByte (s : State) (a : Nat) : Access Byte :=
  if inRange a then .done (s.mem.read a) s else .raised .addressOutOfRange a s

/-- RawWriteByte (20_memory.md R43). -/
def State.rawWriteByte (s : State) (a : Nat) (v : Byte) : Access Unit :=
  if inRange a then .done () (s.setMem (s.mem.write a v)) else .raised .addressOutOfRange a s

/-- RawReadWord checks both addresses before the read (20_memory.md R44). -/
def State.rawReadWord (s : State) (a : Nat) : Access Word :=
  if ¬ inRange a then .raised .addressOutOfRange a s
  else if ¬ inRange (a + 1) then .raised .addressOutOfRange (a + 1) s
  else .done (wordOfBytes (s.mem.read a) (s.mem.read (a + 1))) s

/-- RawWriteWord checks both addresses before any byte is written (20_memory.md R45). -/
def State.rawWriteWord (s : State) (a : Nat) (w : Word) : Access Unit :=
  if ¬ inRange a then .raised .addressOutOfRange a s
  else if ¬ inRange (a + 1) then .raised .addressOutOfRange (a + 1) s
  else .done () (s.setMem ((s.mem.write a (lowByte w)).write (a + 1) (highByte w)))

/-! ### The Cache -/

/-- `blockIndex = (address / blockSize) mod numLines` (20_memory.md R48). -/
def blockIndex (a : Nat) : Fin Config.numLines :=
  ⟨a / Config.blockSize % Config.numLines, Nat.mod_lt _ (by decide)⟩

/-- `tag = address / (numLines * blockSize)` (20_memory.md R48). -/
def blockTag (a : Nat) : Nat := a / (Config.numLines * Config.blockSize)

/-- `offset = address mod blockSize` (20_memory.md R48). -/
def blockOffset (a : Nat) : Fin Config.blockSize :=
  ⟨a % Config.blockSize, Nat.mod_lt _ (by decide)⟩

/-- `base(a) = (a / BLOCK_SIZE) * BLOCK_SIZE`, where a's block starts (20_memory.md R48). -/
def blockBase (a : Nat) : Nat := a / Config.blockSize * Config.blockSize

/-- The line an address selects (20_memory.md R48). -/
def State.lineOf (s : State) (a : Nat) : CacheLine := s.lines[blockIndex a]

/-- A hit: the line is valid with an equal tag (20_memory.md R49, R50). -/
def State.isHit (s : State) (a : Nat) : Bool :=
  (s.lineOf a).valid && (s.lineOf a).tag == blockTag a

/-- The aligned block of an in-range address as Memory holds it. Its byte reads cannot raise,
since `65536 mod BLOCK_SIZE = 0` (20_memory.md R49). -/
def State.loadBlock (s : State) (a : Nat) : Vector Byte Config.blockSize :=
  Vector.ofFn fun j => s.mem.read (blockBase a + j)

/-- `LINE[i].data[o] <- v` (20_memory.md R50). -/
def CacheLine.setByte (l : CacheLine) (o : Fin Config.blockSize) (v : Byte) : CacheLine :=
  { valid := l.valid, tag := l.tag, data := l.data.set o v }

/-- `LINE[i] <- {valid: true, tag: t, data: buf}` for the line of `a` (20_memory.md R49, R50). -/
def State.fillLine (s : State) (a : Nat) (buf : Vector Byte Config.blockSize) : State :=
  s.setLine (blockIndex a) { valid := true, tag := blockTag a, data := buf }

/-- CacheReadByte: the hit is tested before the range, as the rule writes it; an out-of-range
address leaves the line unchanged (20_memory.md R49; log 18). -/
def State.cacheReadByte (s : State) (a : Nat) : Access Byte :=
  if s.isHit a then .done ((s.lineOf a).data[blockOffset a]) s.countHit
  else if ¬ inRange a then .raised .addressOutOfRange a s.countMissOnFault
  else .done ((s.loadBlock a)[blockOffset a]) (s.countMiss.fillLine a (s.loadBlock a))

/-- What a byte write does to the Cache once Memory holds the byte: a matching line is updated in
place, otherwise the block is reloaded and the byte set (20_memory.md R50). -/
def State.cacheUpdateByte (s : State) (a : Nat) (v : Byte) : State :=
  if s.isHit a then
    s.countHit.setLine (blockIndex a) ((s.lineOf a).setByte (blockOffset a) v)
  else s.countMiss.fillLine a ((s.loadBlock a).set (blockOffset a) v)

/-- CacheWriteByte: Memory first, always; an out-of-range write raises before anything is counted
(20_memory.md R50). -/
def State.cacheWriteByte (s : State) (a : Nat) (v : Byte) : Access Unit :=
  (s.rawWriteByte a v).bind fun _ s' => .done () (s'.cacheUpdateByte a v)

/-- CacheReadWord: two independent byte reads, the byte at `a` first (20_memory.md R52). -/
def State.cacheReadWord (s : State) (a : Nat) : Access Word :=
  (s.cacheReadByte a).bind fun lo s' =>
    (s'.cacheReadByte (a + 1)).bind fun hi s'' => .done (wordOfBytes lo hi) s''

/-- CacheWriteWord: two independent byte writes, the byte at `a` first (20_memory.md R53). -/
def State.cacheWriteWord (s : State) (a : Nat) (w : Word) : Access Unit :=
  (s.cacheWriteByte a (lowByte w)).bind fun _ s' => s'.cacheWriteByte (a + 1) (highByte w)

/-- `MemRead(a, 2)`, the data read of an instruction (20_memory.md R54). -/
def State.memRead (s : State) (a : Nat) : Access Word := s.cacheReadWord a

/-- `MemWrite(a, 2, w)`, the data write of an instruction (20_memory.md R54). -/
def State.memWrite (s : State) (a : Nat) (w : Word) : Access Unit := s.cacheWriteWord a w

/-- The instruction fetch, `CacheReadWord(PC)` (20_memory.md R54; 30_encoding.md R87). -/
def State.fetch (s : State) : Access Word := s.cacheReadWord s.pc

end Sys2Proof.Machine
end

