-- ==== Sys2Proof/Machine/Operands.lean ====
section
/-! DEFINITION. The operand forms: the immediate, the word index with its effective address, and
the memory operand (30_encoding.md R82-R84). -/

namespace Sys2Proof.Machine

/-- `absAddr(operand) = LOAD_ADDRESS + 2 * operand`, an exact natural number, no wrap
(30_encoding.md R84). -/
def State.absAddr (s : State) (operand : Nat) : Nat := s.loadAddress + 2 * operand

/-- An immediate as a word: the unsigned operand, zero-extended and never sign-extended
(30_encoding.md R82; 90_conflicts.md C2; log 17). -/
def immediate (operand : Nat) : Word := trunc16 (operand : Int)

/-- An instruction that reads the word at absAddr and then makes its register writes, ending with
`PC <- PC + 2`; when the read raises, none of them is made (40_load_store.md R101). -/
def State.withMemOperand (s : State) (operand : Nat) (write : Word → State → State) :
    Host.Outcome State Fault Refusal :=
  (s.memRead (s.absAddr operand)).complete fun m s' => (write m s').advance

end Sys2Proof.Machine
end

