-- ==== Sys2Proof/Machine/Arithmetic.lean ====
section
/-! DEFINITION. ADD, ADDM, SUB, SUBM, MUL, MULM (42_arithmetic.md). Each result is the exact
integer result of the unsigned readings, narrowed by `trunc16`; no overflow is reported (R120). -/

namespace Sys2Proof.Machine

/-- `trunc16(AC + x)` (42_arithmetic.md R120-R122). -/
def addWords (ac x : Word) : Word := trunc16 ((ac.toNat : Int) + (x.toNat : Int))

/-- `trunc16(AC - x)` (42_arithmetic.md R120, R123, R124). -/
def subWords (ac x : Word) : Word := trunc16 ((ac.toNat : Int) - (x.toNat : Int))

/-- `trunc16(AC * x)`, the low half of the product (42_arithmetic.md R120, R125, R126). -/
def mulWords (ac x : Word) : Word := trunc16 ((ac.toNat : Int) * (x.toNat : Int))

/-- ADD: `AC <- trunc16(AC + operand); PC <- PC + 2` (42_arithmetic.md R121). -/
def execAdd (operand : Nat) (s : State) : Host.Outcome State Fault Refusal :=
  .next (s.setAc (addWords s.ac (immediate operand))).advance

/-- ADDM: `AC <- trunc16(AC + m); PC <- PC + 2` (42_arithmetic.md R122). -/
def execAddm (operand : Nat) (s : State) : Host.Outcome State Fault Refusal :=
  s.withMemOperand operand fun m s' => s'.setAc (addWords s'.ac m)

/-- SUB: `AC <- trunc16(AC - operand); PC <- PC + 2` (42_arithmetic.md R123). -/
def execSub (operand : Nat) (s : State) : Host.Outcome State Fault Refusal :=
  .next (s.setAc (subWords s.ac (immediate operand))).advance

/-- SUBM: `AC <- trunc16(AC - m); PC <- PC + 2` (42_arithmetic.md R124). -/
def execSubm (operand : Nat) (s : State) : Host.Outcome State Fault Refusal :=
  s.withMemOperand operand fun m s' => s'.setAc (subWords s'.ac m)

/-- MUL: `AC <- trunc16(AC * operand); PC <- PC + 2` (42_arithmetic.md R125). -/
def execMul (operand : Nat) (s : State) : Host.Outcome State Fault Refusal :=
  .next (s.setAc (mulWords s.ac (immediate operand))).advance

/-- MULM: `AC <- trunc16(AC * m); PC <- PC + 2` (42_arithmetic.md R126). -/
def execMulm (operand : Nat) (s : State) : Host.Outcome State Fault Refusal :=
  s.withMemOperand operand fun m s' => s'.setAc (mulWords s'.ac m)

end Sys2Proof.Machine
end

