-- ==== Sys2Proof/Machine/CompareBranch.lean ====
section
/-! DEFINITION. CMPM, CJMP, JMP (41_compare_branch.md). -/

namespace Sys2Proof.Machine

/-- CMPM: `FLAG <- (signed16(AC) > signed16(m)); PC <- PC + 2` (41_compare_branch.md R110). -/
def execCmpm (operand : Nat) (s : State) : Host.Outcome State Fault Refusal :=
  s.withMemOperand operand fun m s' => s'.setFlag (compareGreater s'.ac m)

/-- CJMP: to absAddr if FLAG, else to PC + 2; no memory access (41_compare_branch.md R111). -/
def execCjmp (operand : Nat) (s : State) : Host.Outcome State Fault Refusal :=
  .next (if s.flag then s.setPc (s.absAddr operand) else s.advance)

/-- JMP: `PC <- absAddr`; no memory access (41_compare_branch.md R112). -/
def execJmp (operand : Nat) (s : State) : Host.Outcome State Fault Refusal :=
  .next (s.setPc (s.absAddr operand))

end Sys2Proof.Machine
end

