-- ==== Sys2Proof/Machine/LoadStore.lean ====
section
/-! DEFINITION. LOAD, LOADM, STORE (40_load_store.md). -/

namespace Sys2Proof.Machine

/-- LOAD: `AC <- operand; PC <- PC + 2` (40_load_store.md R100). -/
def execLoad (operand : Nat) (s : State) : Host.Outcome State Fault Refusal :=
  .next (s.setAc (immediate operand)).advance

/-- LOADM: `AC <- MemRead(absAddr, 2); PC <- PC + 2` (40_load_store.md R101). -/
def execLoadm (operand : Nat) (s : State) : Host.Outcome State Fault Refusal :=
  s.withMemOperand operand fun m s' => s'.setAc m

/-- STORE: `MemWrite(absAddr, 2, AC); PC <- PC + 2`; the partial write of a store at 65535 stays
(40_load_store.md R102). -/
def execStore (operand : Nat) (s : State) : Host.Outcome State Fault Refusal :=
  (s.memWrite (s.absAddr operand) s.ac).complete fun _ s' => s'.advance

end Sys2Proof.Machine
end

