-- ==== Sys2Proof/Machine/System.lean ====
section
/-! DEFINITION. START, DISP, HALT and the invalid opcode (43_system.md). All four ignore the
operand; the invalid opcode only records it (30_encoding.md R83; 60_exceptions.md R142). -/

namespace Sys2Proof.Machine

/-- START: `PC <- PC + 2`, no other effect; the operand is ignored (43_system.md R130). -/
def execStart (_operand : Nat) (s : State) : Host.Outcome State Fault Refusal :=
  .next s.advance

/-- DISP: `emit(signed16(AC)); PC <- PC + 2`; the operand is ignored (43_system.md R131). -/
def execDisp (_operand : Nat) (s : State) : Host.Outcome State Fault Refusal :=
  .next (s.emit (signed16 s.ac)).advance

/-- HALT: `RUN <- halted`; PC is not written; the operand is ignored (43_system.md R132). -/
def execHalt (_operand : Nat) (s : State) : Host.Outcome State Fault Refusal :=
  .next s.halt

/-- Opcode 0xF: `raise InvalidOpcode(instr)`, with the whole 16-bit word as info; PC, AC and FLAG
unchanged (43_system.md R133; 60_exceptions.md R142). -/
def execInvalid (operand : Nat) (s : State) : Host.Outcome State Fault Refusal :=
  .next (s.takeFault .invalidOpcode (encodeWord (.invalid operand)).toNat)

end Sys2Proof.Machine
end

