-- ==== Sys2Proof/Machine/Dispatch.lean ====
section
/-! DEFINITION. The execute phase: one arm for each row of the opcode map (30_encoding.md R85). -/

namespace Sys2Proof.Machine

-- The rule of the opcode (30_encoding.md R87), run after the fetch; it does not test RUN (log 7).
def exec (i : Instr) (s : State) : Host.Outcome State Fault Refusal :=
  match i with
  | .start n => Sys2Proof.Machine.execStart n s
  | .load n => Sys2Proof.Machine.execLoad n s
  | .loadm n => Sys2Proof.Machine.execLoadm n s
  | .store n => Sys2Proof.Machine.execStore n s
  | .cmpm n => Sys2Proof.Machine.execCmpm n s
  | .cjmp n => Sys2Proof.Machine.execCjmp n s
  | .jmp n => Sys2Proof.Machine.execJmp n s
  | .add n => Sys2Proof.Machine.execAdd n s
  | .addm n => Sys2Proof.Machine.execAddm n s
  | .sub n => Sys2Proof.Machine.execSub n s
  | .subm n => Sys2Proof.Machine.execSubm n s
  | .mul n => Sys2Proof.Machine.execMul n s
  | .mulm n => Sys2Proof.Machine.execMulm n s
  | .disp n => Sys2Proof.Machine.execDisp n s
  | .halt n => Sys2Proof.Machine.execHalt n s
  | .invalid n => Sys2Proof.Machine.execInvalid n s

end Sys2Proof.Machine
end

