-- ==== Sys2Proof/Machine/Place.lean ====
section
/-! DEFINITION. Placing an instruction word from outside the machine, for `State.withFetchWord`
(log 16). -/

namespace Sys2Proof.Machine

/-- One byte placed in Memory from outside; a line that holds the address follows, so that the
Cache stays transparent (20_memory.md R56), and nothing is counted. An address outside memory takes
no byte (log 22). -/
def State.placeByte (s : State) (a : Nat) (v : Byte) : State :=
  if ¬ inRange a then s
  else if s.isHit a then
    (s.setMem (s.mem.write a v)).setLine (blockIndex a) ((s.lineOf a).setByte (blockOffset a) v)
  else s.setMem (s.mem.write a v)

/-- One word placed at `a`, low byte first (20_memory.md R58). -/
def State.placeWord (s : State) (a : Nat) (w : Word) : State :=
  (s.placeByte a (lowByte w)).placeByte (a + 1) (highByte w)

end Sys2Proof.Machine
end

