-- ==== Sys2Proof/Machine/Step.lean ====
section
/-! DEFINITION. One step of the machine (30_encoding.md R87). -/

namespace Sys2Proof.Machine

/-- One step: no step when RUN is halted or faulted; otherwise fetch at PC, decode, execute. A
fetch that raises ends the step at once (30_encoding.md R87, R88; 60_exceptions.md R146, R147). -/
def step (s : State) : Host.Outcome State Fault Refusal :=
  match s.run with
  | .halted => .fault .stepAfterHalt
  | .faulted => .fault .stepAfterFault
  | .running =>
    match s.fetch with
    | .done w s' => exec (decodeWord w) s'
    | .raised kind info s' => .next (s'.takeFault kind info)

/-- `s` with the instruction of `nbits` bits `w` stored at PC, where `step` fetches (log 16). Bits
at and above `nbits` are 0. It writes those two bytes and nothing the fetch does not need. -/
def State.withFetchWord (s : State) (nbits w : Nat) : State :=
  s.placeWord s.pc (BitVec.ofNat 16 (w % 2 ^ nbits))

end Sys2Proof.Machine
end

