-- ==== Sys2Proof/Machine/Boot.lean ====
section
/-! DEFINITION. The program load (70_reset_and_hazards.md R171, R172) and what the host observes
(00_scope.md R5; 20_memory.md R57). -/

namespace Sys2Proof.Machine

/-- Writes the words as consecutive words from `a` on, through the Cache or straight to Memory;
it stops at the first word that does not fit (70_reset_and_hazards.md R171, R172). -/
def State.loadWords (viaCache : Bool) : Nat → List Word → State → Access Unit
  | _, [], s => .done () s
  | a, w :: ws, s =>
    (if viaCache then s.cacheWriteWord a w else s.rawWriteWord a w).bind fun _ s' =>
      State.loadWords viaCache (a + 2) ws s'

/-- LoadProgram with LOAD_VIA_CACHE given; a load fault makes the run faulted and keeps what was
written (70_reset_and_hazards.md R171, R172). No opcode is validated. -/
def State.loadProgramVia (viaCache : Bool) (words : List Word) (s : State) : State :=
  match State.loadWords viaCache s.loadAddress words s with
  | .done _ s' => s'
  | .raised kind info s' => s'.takeFault kind info

/-- loadProgram of 00_scope.md R5, with the OPEN parameter LOAD_VIA_CACHE (log 4). -/
def State.loadProgram (words : List Word) (s : State) : State :=
  State.loadProgramVia Config.loadViaCache words s

/-- hitRatio: 0 when nothing has been accessed, else the exact rational
`HITS * 100 / (HITS + MISSES)` (20_memory.md R57; 92_eei_decisions.md D17). -/
def hitRatio (hits misses : Nat) : Rat :=
  if hits + misses = 0 then 0 else ((hits * 100 : Nat) : Rat) / ((hits + misses : Nat) : Rat)

/-- What the host can read of the block (00_scope.md R5; 60_exceptions.md R151). -/
structure Observation where
  out : List Int
  run : RunState
  fault : Option FaultRecord
  ac : Word
  hits : Nat
  misses : Nat
  hitRatio : Rat
  deriving DecidableEq, Repr

/-- observe of 00_scope.md R5. -/
def State.observe (s : State) : Observation :=
  { out := s.out, run := s.run, fault := s.fault, ac := s.ac, hits := s.hits, misses := s.misses
    hitRatio := Sys2Proof.Machine.hitRatio s.hits s.misses }

end Sys2Proof.Machine
end

