-- ==== Sys2Proof/Safety.lean ====
section
/-! DEFINITION. The terms claims are stated in: the transparency of the Cache, legal states, what a
fault leaves, what a program can see, which parts of the state two states share, and runs. -/

namespace Sys2Proof.Machine

/-! ### Invariants -/

/-- The transparency of one line of the Cache (20_memory.md R56), with the bound that R49 draws
from it: the block of a valid line lies in memory, and its bytes are memory's. -/
abbrev State.LineTransparent (s : State) (i : Fin Config.numLines) : Prop :=
  (s.lines[i]).valid = true →
    ((s.lines[i]).tag * Config.numLines + i) * Config.blockSize + Config.blockSize
      ≤ Config.memSize ∧
    ∀ j : Fin Config.blockSize,
      (s.lines[i]).data[j] =
        s.mem.read (((s.lines[i]).tag * Config.numLines + i) * Config.blockSize + j)

/-- The transparency invariant of 20_memory.md R56, over all lines. -/
abbrev State.Transparent (s : State) : Prop := ∀ i : Fin Config.numLines, s.LineTransparent i

/-- A fault record as 10_state.md R26 describes it: code 1 and an address out of range, or code 2
and a 16-bit word whose opcode is 0xF. -/
def FaultRecord.legal (r : FaultRecord) : Bool :=
  match r.kind with
  | .addressOutOfRange => r.code == 1 && decide (65535 < r.info)
  | .invalidOpcode => r.code == 2 && decide (0xF000 ≤ r.info) && decide (r.info ≤ 0xFFFF)

/-- FAULT is none while RUN is running or halted, and a record when RUN is faulted
(10_state.md R26). -/
def State.faultLegal (s : State) : Bool :=
  match s.run, s.fault with
  | .faulted, some r => r.legal
  | .faulted, none => false
  | _, none => true
  | _, some _ => false

/-- A signed 16-bit integer, the type of OUT's entries (10_state.md R20, R31). -/
abbrev IsSigned16 (v : Int) : Prop := -32768 ≤ v ∧ v ≤ 32767

/-- The legal states: memory in canonical form, a transparent Cache, FAULT as RUN asks, and OUT a
sequence of signed 16-bit integers. -/
structure State.Legal (s : State) : Prop where
  memWf : s.mem.wf = true
  transparent : s.Transparent
  faultLegal : s.faultLegal = true
  outSigned : ∀ v ∈ s.out, IsSigned16 v

/-! ### What two states share -/

/-- Every byte of memory reads the same. -/
abbrev SameMemory (s t : State) : Prop := ∀ a, t.mem.read a = s.mem.read a

/-- LINE, HITS and MISSES are the same. -/
structure SameCache (s t : State) : Prop where
  lines : t.lines = s.lines
  hits : t.hits = s.hits
  misses : t.misses = s.misses

/-- The control state and the output are the same: RUN, FAULT, LOAD_ADDRESS, INITIAL_PC, OUT. -/
structure SameControl (s t : State) : Prop where
  run : t.run = s.run
  fault : t.fault = s.fault
  loadAddress : t.loadAddress = s.loadAddress
  initialPc : t.initialPc = s.initialPc
  out : t.out = s.out

/-- Everything but the hidden state LINE, HITS and MISSES is the same (10_state.md R34). -/
structure SameToProgram (s t : State) : Prop where
  pc : t.pc = s.pc
  ac : t.ac = s.ac
  flag : t.flag = s.flag
  mem : t.mem = s.mem
  control : SameControl s t

/-- `t` is what `raise kind(info)` leaves of `s`, memory and Cache apart: RUN is faulted and FAULT
records kind and info; PC, AC, FLAG, OUT and the configuration are those of `s`
(60_exceptions.md R146). -/
structure Raises (kind : FaultKind) (info : Nat) (s t : State) : Prop where
  run : t.run = .faulted
  fault : ∃ r, t.fault = some r ∧ r.kind = kind ∧ r.info = info
  pc : t.pc = s.pc
  ac : t.ac = s.ac
  flag : t.flag = s.flag
  out : t.out = s.out
  loadAddress : t.loadAddress = s.loadAddress
  initialPc : t.initialPc = s.initialPc

/-- `t` is `s` after an instruction that writes AC, goes on to PC+2, and writes nothing else. -/
structure OnlyAcWritten (s t : State) : Prop where
  pc : t.pc = s.pc + 2
  flag : t.flag = s.flag
  memory : SameMemory s t
  cache : SameCache s t
  control : SameControl s t

/-- The number of cache accesses counted so far (20_memory.md R51). -/
abbrev State.accesses (s : State) : Nat := s.hits + s.misses

/-- How many bytes MISS_ON_FAULT makes a faulting read count: 1 or 0 (20_memory.md R49). -/
def missesOnFault : Nat := if Config.missOnFault then 1 else 0

/-- What an instruction that reads one word of data, and completes, does beside its register writes:
it goes on to PC+2, no byte of memory and nothing of the control state changes, the Cache stays
transparent, and two accesses are counted (20_memory.md R52, R62). -/
structure AdvancedAfterRead (s t : State) : Prop where
  pc : t.pc = s.pc + 2
  memory : SameMemory s t
  control : SameControl s t
  transparent : t.Transparent
  counted : t.accesses = s.accesses + 2

/-- How an instruction whose operand `n` is a word read from memory faults: at a > 65535 with info
a, and at a = 65535 with info 65536, after the byte at 65535 has been read into the Cache
(40_load_store.md R101). -/
def FaultsAsMemoryOperand (i : Instr) (n : Nat) : Prop :=
  ∀ s : State, s.Transparent →
    (65535 < s.absAddr n → ∃ t, exec i s = .next t ∧
      Raises .addressOutOfRange (s.absAddr n) s t ∧ SameMemory s t ∧ t.lines = s.lines ∧
      t.hits = s.hits ∧ t.misses = s.misses + missesOnFault) ∧
    (s.absAddr n = 65535 → ∃ t, exec i s = .next t ∧
      Raises .addressOutOfRange 65536 s t ∧ SameMemory s t ∧ t.Transparent ∧
      t.isHit 65535 = true ∧ t.accesses = s.accesses + 1 + missesOnFault)

/-- The word that memory holds at `a`: `MEM[a] + 256 * MEM[a+1]` (20_memory.md R56). -/
def State.wordAt (s : State) (a : Nat) : Word := wordOfBytes (s.mem.read a) (s.mem.read (a + 1))

/-- The bytes at PC and PC+1 are in memory and decode to `i`. -/
abbrev InstrAtPc (s : State) (i : Instr) : Prop :=
  s.pc + 1 < Config.memSize ∧ decode [s.mem.read s.pc, s.mem.read (s.pc + 1)] = .ok (i, [])

/-! ### Assembly statements -/

/-- The word of a legal statement: its value is `opcode * 4096 + n`, and its two fields are the
opcode and the operand (30_encoding.md R81, R90). -/
def AssemblesTo (l : SourceLine) (opcode n : Nat) : Prop :=
  ∃ w : Word, assembleLine l = some w ∧ w.toNat = opcode * 4096 + n ∧
    (decodeWord w).opcode = opcode ∧ (decodeWord w).operand = n

/-! ### Interleavings of byte accesses -/

/-- A byte access to be made through the Cache or straight to Memory. -/
inductive ByteAccess where
  | read (a : Nat)
  | write (a : Nat) (v : Byte)
  deriving DecidableEq, Repr

/-- The value an access gives back, none where it raises. -/
def Access.value {α : Type} : Access α → Option α
  | .done v _ => some v
  | .raised _ _ _ => none

/-- The values the reads of an interleaving observe through the Cache (95_test_vectors.md S3). -/
def valuesThroughCache : State → List ByteAccess → List (Option Byte)
  | _, [] => []
  | s, .read a :: rest =>
    (s.cacheReadByte a).value :: valuesThroughCache (s.cacheReadByte a).state rest
  | s, .write a v :: rest => valuesThroughCache (s.cacheWriteByte a v).state rest

/-- The values the reads of an interleaving observe in "an uncached direct-Memory implementation"
(95_test_vectors.md S3). -/
def valuesUncached : State → List ByteAccess → List (Option Byte)
  | _, [] => []
  | s, .read a :: rest =>
    (s.rawReadByte a).value :: valuesUncached (s.rawReadByte a).state rest
  | s, .write a v :: rest => valuesUncached (s.rawWriteByte a v).state rest

/-! ### Runs -/

/-- `n` steps lead from `s` to `t`. -/
def StepsTo : Nat → State → State → Prop
  | 0, s, t => s = t
  | n + 1, s, t => ∃ u, step s = .next u ∧ StepsTo n u t

/-- A finite part of a run (60_exceptions.md R157). -/
def Runs (s t : State) : Prop := ∃ n, StepsTo n s t

/-- execute ends normally in `t`: RUN became halted (60_exceptions.md R157). -/
def EndsHalted (s t : State) : Prop := Runs s t ∧ t.run = .halted

/-- execute ends with a fault in `t` (60_exceptions.md R157). -/
def EndsFaulted (s t : State) : Prop := Runs s t ∧ t.run = .faulted

/-- The run is infinite: a legal behaviour, not a fault (60_exceptions.md R157). -/
def RunsForever (s : State) : Prop := ∀ n, ∃ t, StepsTo n s t ∧ t.run = .running

/-- A safe run: no fault is reached from `s`. -/
def SafeRun (s : State) : Prop := ∀ t, Runs s t → t.run ≠ .faulted

end Sys2Proof.Machine
end

