-- ==== Sys2Proof/Certificates/Slice0/Obligations.lean ====
section
/-! DEFINITION. The statements for the provers, in the order of the spec's files. -/

open Sys2Proof Sys2Proof.Machine

/-! ### Construction and the legal states (70_reset_and_hazards.md, 10_state.md) -/

/-- 70_reset_and_hazards.md, the table of construction: every field of the constructed state, for
every LOAD_ADDRESS, INITIAL_PC and MEM_INIT. That State.reset takes 0, 0 and a memory with nothing
listed is the model's choice (logs 1 and 2); that tags and data are 0 is the spec's D12. -/
def Obligations.ConstructionSetsEveryField : Prop :=
  (∀ (la ip : Nat) (m : Memory),
    (State.construct la ip m).pc = ip ∧ (State.construct la ip m).ac = 0 ∧
    (State.construct la ip m).flag = false ∧ (State.construct la ip m).run = .running ∧
    (State.construct la ip m).fault = none ∧ (State.construct la ip m).loadAddress = la ∧
    (State.construct la ip m).initialPc = ip ∧
    (∀ i : Fin Config.numLines, (State.construct la ip m).lines[i] =
      { valid := false, tag := 0, data := #v[0, 0] }) ∧
    (State.construct la ip m).hits = 0 ∧ (State.construct la ip m).misses = 0 ∧
    (State.construct la ip m).mem = m ∧ (State.construct la ip m).out = []) ∧
  State.reset = State.construct 0 0 []

/-- Every constructed state with a canonical memory is legal, State.reset among them. -/
def Obligations.ConstructedStatesAreLegal : Prop :=
  (∀ (la ip : Nat) (m : Memory), m.wf = true → (State.construct la ip m).Legal) ∧
  State.reset.Legal

/-- Every step keeps the legal states: memory stays canonical, the Cache transparent
(20_memory.md R56), FAULT what RUN asks (10_state.md R26), OUT signed 16-bit integers (R31). -/
def Obligations.StepKeepsLegal : Prop :=
  ∀ s t : State, s.Legal → step s = .next t → t.Legal

/-- 10_state.md R25: only running has a step; HALT moves running to halted and a raised fault to
faulted, and nothing else leaves running; both are terminal; no instruction reads RUN; construction
leaves it running. -/
def Obligations.RunStateRules : Prop :=
  (∀ s : State, (∃ t, step s = .next t) ↔ s.run = .running) ∧
  (∀ (n : Nat) (s : State), ∃ t, exec (.halt n) s = .next t ∧ t.run = .halted) ∧
  (∀ (s : State) (k : FaultKind) (a : Nat), (s.takeFault k a).run = .faulted) ∧
  (∀ s t : State, step s = .next t →
    t.run = .running ∨
    (t.run = .halted ∧ ∃ w u n, s.fetch = .done w u ∧ decodeWord w = .halt n) ∨
    (t.run = .faulted ∧ ∃ u k a, t = State.takeFault u k a)) ∧
  (∀ (i : Instr) (s : State) (r : RunState), ∃ t u, exec i s = .next t ∧
    exec i { s with run := r } = .next u ∧ { u with run := t.run } = t) ∧
  (∀ (la ip : Nat) (m : Memory), (State.construct la ip m).run = .running)

/-- 10_state.md R24: FLAG is written by CMPM only, with the signed comparison, in both directions;
it is read by CJMP only; it persists across steps until a CMPM; construction clears it. -/
def Obligations.FlagRules : Prop :=
  (∀ (i : Instr) (s t : State), exec i s = .next t → (∀ n, i ≠ .cmpm n) → t.flag = s.flag) ∧
  (∀ (n : Nat) (s : State), s.Transparent → s.absAddr n + 1 < Config.memSize →
    ∃ t, exec (.cmpm n) s = .next t ∧
      (t.flag = true ↔ signed16 s.ac > signed16 (s.wordAt (s.absAddr n)))) ∧
  (∀ (i : Instr) (s t : State) (b : Bool), (∀ n, i ≠ .cjmp n) → exec i s = .next t →
    ∃ u, exec i (s.setFlag b) = .next u ∧ u.setFlag t.flag = t) ∧
  (∀ (n : Nat) (s t : State), exec (.cjmp n) s = .next t → t.flag = s.flag ∧
    t.pc = if s.flag then s.absAddr n else s.pc + 2) ∧
  (∀ s t : State, step s = .next t →
    t.flag = s.flag ∨ ∃ w u n, s.fetch = .done w u ∧ decodeWord w = .cmpm n) ∧
  (∀ (la ip : Nat) (m : Memory), (State.construct la ip m).flag = false)

/-- 10_state.md, AC: it is written only by LOAD, LOADM, ADD, ADDM, SUB, SUBM, MUL and MULM, and
START, LOAD, LOADM, CJMP, JMP, HALT and the invalid opcode do not read it: what they leave does not
depend on it, AC itself apart. -/
def Obligations.AccumulatorWritersAndReaders : Prop :=
  (∀ (i : Instr) (s t : State), exec i s = .next t →
    i.opcode ∉ [0x1, 0x2, 0x7, 0x8, 0x9, 0xA, 0xB, 0xC] → t.ac = s.ac) ∧
  (∀ (i : Instr) (s t : State) (v : Word), exec i s = .next t →
    i.opcode ∈ [0x0, 0x1, 0x2, 0x5, 0x6, 0xE, 0xF] →
    ∃ u, exec i (s.setAc v) = .next u ∧ u.setAc t.ac = t)

/-- 10_state.md, LOAD_ADDRESS and INITIAL_PC: no run changes them. -/
def Obligations.ConfigurationIsConstant : Prop :=
  ∀ (n : Nat) (s t : State), StepsTo n s t →
    t.loadAddress = s.loadAddress ∧ t.initialPc = s.initialPc

/-- 10_state.md, OUT: only DISP appends, one value a step; no run retracts what was emitted, a
fault included. -/
def Obligations.OutputIsNeverRetracted : Prop :=
  (∀ (n : Nat) (s t : State), StepsTo n s t → s.out <+: t.out) ∧
  (∀ s t : State, step s = .next t → t.out = s.out ∨
    ∃ w u n, s.fetch = .done w u ∧ decodeWord w = .disp n ∧ t.out = s.out ++ [signed16 s.ac])

/-! ### Memory and Cache (20_memory.md) -/

/-- 20_memory.md R42 and R43: a raw byte read gives the byte and changes no state; a raw byte write
changes that byte and nothing else; both raise out of range, changing nothing. -/
def Obligations.RawByteOperations : Prop :=
  ∀ (s : State) (a : Nat) (v : Byte),
    (a ≤ 65535 → s.rawReadByte a = .done (s.mem.read a) s) ∧
    (65535 < a → s.rawReadByte a = .raised .addressOutOfRange a s) ∧
    (a ≤ 65535 → s.mem.wf = true → ∃ t, s.rawWriteByte a v = .done () t ∧
      t.mem.read a = v ∧ (∀ b, b ≠ a → t.mem.read b = s.mem.read b) ∧
      t.mem.wf = true ∧ { t with mem := s.mem } = s) ∧
    (65535 < a → s.rawWriteByte a v = .raised .addressOutOfRange a s)

/-- 20_memory.md, RawWriteWord and RawReadWord: a raw word write at the last byte of memory or
above changes no byte, and one inside memory reads back. -/
def Obligations.RawWordWriteIsAllOrNothing : Prop :=
  ∀ (s : State) (a : Nat) (w : Word), s.mem.wf = true →
    (a + 1 < Config.memSize → ∃ t, s.rawWriteWord a w = .done () t ∧
      t.rawReadWord a = .done w t ∧
      (∀ b, b ≠ a → b ≠ a + 1 → t.mem.read b = s.mem.read b)) ∧
    (a = 65535 → s.rawWriteWord a w = .raised .addressOutOfRange 65536 s ∧
      s.rawReadWord a = .raised .addressOutOfRange 65536 s) ∧
    (65535 < a → s.rawWriteWord a w = .raised .addressOutOfRange a s ∧
      s.rawReadWord a = .raised .addressOutOfRange a s)

/-- 20_memory.md R48: the decomposition of an address, the block it lies in, and that a block
number lives in one line only. -/
def Obligations.AddressDecomposition : Prop :=
  (∀ a : Nat, (blockOffset a : Nat) = a % 2 ∧ (blockIndex a : Nat) = a / 2 % 8 ∧
    blockTag a = a / 16 ∧ (a ≤ 65535 → blockTag a ≤ 4095) ∧
    blockBase a ≤ a ∧ a < blockBase a + Config.blockSize ∧
    blockBase a = (blockTag a * Config.numLines + blockIndex a) * Config.blockSize) ∧
  (∀ a b : Nat, a / 2 = b / 2 ↔ blockIndex a = blockIndex b ∧ blockTag a = blockTag b)

/-- 20_memory.md R49, R50 and R51: every byte access in range, read or write, counts one hit when
its line is valid with an equal tag and one miss otherwise, a valid line with another tag included
(95_test_vectors.md S6), and never both; an out-of-range write counts nothing, an out-of-range read one miss when
MISS_ON_FAULT; the raw operations and the instructions without a data access count nothing. -/
def Obligations.CacheAccounting : Prop :=
  (∀ (s t : State) (a : Nat) (v : Byte), a ≤ 65535 →
    (t = (s.cacheReadByte a).state ∨ t = (s.cacheWriteByte a v).state) →
      if (s.lines[blockIndex a]).valid = true ∧ (s.lines[blockIndex a]).tag = blockTag a then
        t.hits = s.hits + 1 ∧ t.misses = s.misses
      else t.hits = s.hits ∧ t.misses = s.misses + 1) ∧
  (∀ (s : State) (a : Nat) (v : Byte), s.Transparent → 65535 < a →
    (s.cacheWriteByte a v).state = s ∧
    (s.cacheReadByte a).state.hits = s.hits ∧
    (s.cacheReadByte a).state.misses = s.misses + missesOnFault) ∧
  (∀ (s : State) (a : Nat) (v : Byte) (w : Word) (t : State),
    t = (s.rawReadByte a).state ∨ t = (s.rawWriteByte a v).state ∨
      t = (s.rawReadWord a).state ∨ t = (s.rawWriteWord a w).state →
    t.hits = s.hits ∧ t.misses = s.misses) ∧
  (∀ (i : Instr) (s t : State), exec i s = .next t →
    i.opcode ∉ [0x2, 0x3, 0x4, 0x8, 0xA, 0xC] → t.hits = s.hits ∧ t.misses = s.misses)

/-- 20_memory.md R55: a miss, of a read or of a write, overwrites its line whatever it held, with
the block of the address, and leaves every other line alone; nothing is written back. It counts
one miss and no hit. -/
def Obligations.MissOverwritesItsLine : Prop :=
  ∀ (s : State) (a : Nat) (v : Byte), a ≤ 65535 → s.isHit a = false → s.mem.wf = true →
    (∃ t, s.cacheReadByte a = .done (s.mem.read a) t ∧ t.isHit a = true ∧
      (∀ j : Fin Config.blockSize, (t.lineOf a).data[j] = s.mem.read (blockBase a + j)) ∧
      (∀ i : Fin Config.numLines, i ≠ blockIndex a → t.lines[i] = s.lines[i]) ∧
      t.mem = s.mem ∧ t.hits = s.hits ∧ t.misses = s.misses + 1) ∧
    (∃ t, s.cacheWriteByte a v = .done () t ∧ t.isHit a = true ∧
      (∀ j : Fin Config.blockSize, (t.lineOf a).data[j] = t.mem.read (blockBase a + j)) ∧
      (∀ i : Fin Config.numLines, i ≠ blockIndex a → t.lines[i] = s.lines[i]) ∧
      (∀ b, t.mem.read b = if b = a then v else s.mem.read b) ∧
      t.hits = s.hits ∧ t.misses = s.misses + 1)

/-- 95_test_vectors.md S1, S4 and S5, from the cache operations of 20_memory.md: an access to an
invalid line is a miss; an immediate repeat of a read is a hit with the same value; a read after a
write of the same byte is a hit with the value written. In any state. -/
def Obligations.FirstAccessMissesRepeatHits : Prop :=
  ∀ (s : State) (a : Nat) (v : Byte), a ≤ 65535 →
    ((s.lineOf a).valid = false → (s.cacheReadByte a).state.misses = s.misses + 1 ∧
      (s.cacheWriteByte a v).state.misses = s.misses + 1) ∧
    (∃ x t, s.cacheReadByte a = .done x t ∧ t.cacheReadByte a = .done x t.countHit) ∧
    (∃ t, s.cacheWriteByte a v = .done () t ∧ t.cacheReadByte a = .done v t.countHit)

/-- 95_test_vectors.md S3, "Cache transparency: for any interleaving of reads/writes, values
observed through Cache equal what an uncached direct-Memory implementation would return", from the
transparency invariant of 20_memory.md. -/
def Obligations.CacheIsTransparentToInterleavings : Prop :=
  ∀ (s : State) (l : List ByteAccess), s.Legal → valuesThroughCache s l = valuesUncached s l

/-- 10_state.md and 20_memory.md, the hidden state: what a step leaves for a program to see, and
whether there is a step at all, does not depend on LINE, HITS and MISSES. -/
def Obligations.StepDoesNotSeeTheCache : Prop :=
  ∀ s t : State, s.Legal → t.Legal → SameToProgram s t →
    (∀ s', step s = .next s' → ∃ t', step t = .next t' ∧ SameToProgram s' t') ∧
    (∀ r, step s = .fault r → step t = .fault r)

/-- The same over runs of any length: two legal states that differ only in the hidden state have
runs that differ only in the hidden state, the output included. -/
def Obligations.RunsDoNotSeeTheCache : Prop :=
  ∀ (n : Nat) (s t s' : State), s.Legal → t.Legal → SameToProgram s t → StepsTo n s s' →
    ∃ t', StepsTo n t t' ∧ SameToProgram s' t' ∧ t'.out = s'.out

/-- 20_memory.md R58: a word is stored with its low byte at the lower address and its high byte at
the next, for data and for the fetch alike; it reads back as it was written, and a word read at the
next address sees the high byte as its low byte. -/
def Obligations.WordsAreLittleEndian : Prop :=
  ∀ (s : State) (a : Nat) (w : Word), s.Legal → a + 1 < Config.memSize →
    ∃ t, s.memWrite a w = .done () t ∧
      t.mem.read a = w.extractLsb' 0 8 ∧ t.mem.read (a + 1) = w.extractLsb' 8 8 ∧
      (∀ b, b ≠ a → b ≠ a + 1 → t.mem.read b = s.mem.read b) ∧
      (∃ u, t.memRead a = .done w u) ∧
      (∃ u, (t.setPc a).fetch = .done w u) ∧
      (a + 2 < Config.memSize → ∃ x u, t.memRead (a + 1) = .done x u ∧
        x.toNat % 256 = w.toNat / 256)

/-- 20_memory.md, access widths: an instruction that does not fault makes one word access (two
counted byte accesses) after its fetch when it is LOADM, STORE, CMPM, ADDM, SUBM or MULM, and none
otherwise. -/
def Obligations.DataAccessesPerInstruction : Prop :=
  ∀ (i : Instr) (s t : State), s.run = .running → s.Legal → exec i s = .next t →
    t.run ≠ .faulted →
    t.accesses = s.accesses + (if i.opcode ∈ [0x2, 0x3, 0x4, 0x8, 0xA, 0xC] then 2 else 0)

/-- 20_memory.md, reach of data accesses: no instruction but STORE changes memory, and STORE changes
only the two bytes at its absAddr, which lie in LOAD_ADDRESS .. LOAD_ADDRESS + 8191. -/
def Obligations.OnlyStoreWritesItsWord : Prop :=
  (∀ (i : Instr) (s t : State), exec i s = .next t → (∀ n, i ≠ .store n) → t.mem = s.mem) ∧
  (∀ (n a : Nat) (s t : State), exec (.store n) s = .next t →
    a ≠ s.absAddr n → a ≠ s.absAddr n + 1 → t.mem.read a = s.mem.read a) ∧
  (∀ (i : Instr) (s : State), i.WellFormed →
    s.loadAddress ≤ s.absAddr i.operand ∧ s.absAddr i.operand + 1 ≤ s.loadAddress + 8191)

/-- 20_memory.md, instruction-fetch coherence: the very next fetch sees the word a STORE wrote over
the next instruction. -/
def Obligations.StoreIsSeenByTheNextFetch : Prop :=
  ∀ (n : Nat) (s : State), s.Legal → s.run = .running → s.absAddr n = s.pc + 2 →
    s.pc + 3 < Config.memSize →
    ∃ t u, exec (.store n) s = .next t ∧ step t = exec (decodeWord s.ac) u ∧ SameToProgram t u

/-- 20_memory.md, hitRatio: 0 without accesses, else the percentage of hits, exactly; it lies
between 0 and 100. -/
def Obligations.HitRatioIsAPercentage : Prop :=
  hitRatio 0 0 = 0 ∧
  ∀ h m : Nat, hitRatio h m * ((h : Rat) + m) = 100 * h ∧ 0 ≤ hitRatio h m ∧
    hitRatio h m ≤ 100

/-! ### Encoding and the execution cycle (30_encoding.md) -/

/-- 30_encoding.md R81: the one format, bit 15..12 the opcode and bits 11..0 the operand, for every
word. -/
def Obligations.DecodeReadsTheTwoFields : Prop :=
  ∀ w : Word, (decodeWord w).opcode = (w.extractLsb' 12 4).toNat ∧
    (decodeWord w).operand = (w.extractLsb' 0 12).toNat ∧
    w.toNat = (decodeWord w).opcode * 4096 + (decodeWord w).operand

/-- Decoding the encoding of any well-formed instruction gives it back, with every operand, and the
bytes after it untouched. -/
def Obligations.DecodeOfEncodeIsIdentity : Prop :=
  ∀ (i : Instr) (rest : List Byte), i.WellFormed → decode (encode i ++ rest) = .ok (i, rest)

/-- 30_encoding.md, decode is total: any two bytes decode to exactly one well-formed instruction,
whose encoding they are; fewer than two bytes are rejected. -/
def Obligations.DecodeIsTotalAndExact : Prop :=
  (∀ (lo hi : Byte) (rest : List Byte), ∃ i : Instr, i.WellFormed ∧
    decode (lo :: hi :: rest) = .ok (i, rest) ∧ encode i = [lo, hi] ∧
    ∀ j : Instr, j.WellFormed → encode j = [lo, hi] → j = i) ∧
  (∀ b : Byte, decode [b] = .error .truncated) ∧ decode [] = .error .truncated

/-- 95_test_vectors.md 2.3 and the opcode map: a word of each row, bit by bit. A sanity statement. -/
def Obligations.SampleWordsDecode : Prop :=
  decodeWord 0b0000000000000000#16 = .start 0 ∧
  decodeWord 0b0001111111111111#16 = .load 4095 ∧
  decodeWord 0b0010000000001111#16 = .loadm 15 ∧
  decodeWord 0b0011000000000101#16 = .store 5 ∧
  decodeWord 0b0100000000010001#16 = .cmpm 17 ∧
  decodeWord 0b0101000000000101#16 = .cjmp 5 ∧
  decodeWord 0b0110000000000100#16 = .jmp 4 ∧
  decodeWord 0b0111000000000011#16 = .add 3 ∧
  decodeWord 0b1000100000000001#16 = .addm 0x801 ∧
  decodeWord 0b1001000000001010#16 = .sub 10 ∧
  decodeWord 0b1010000000000010#16 = .subm 2 ∧
  decodeWord 0b1011000000010000#16 = .mul 16 ∧
  decodeWord 0b1100000000010000#16 = .mulm 0x010 ∧
  decodeWord 0b1101000100100011#16 = .disp 0x123 ∧
  decodeWord 0b1110111111111111#16 = .halt 4095 ∧
  decodeWord 0b1111000000000000#16 = .invalid 0

/-- 30_encoding.md, the cycle: when RUN is running and the bytes at PC decode to `i`, the step is
`exec i` on a state that the fetch changed only in LINE and the counters; the fetch counts two
accesses and keeps the Cache transparent. -/
def Obligations.StepRunsTheDecodedInstruction : Prop :=
  ∀ (s : State) (i : Instr), s.run = .running → s.Transparent → InstrAtPc s i →
    ∃ u, step s = exec i u ∧ SameToProgram s u ∧ u.Transparent ∧
      u.accesses = s.accesses + 2

/-- 30_encoding.md, fetch faults: PC above 65535 raises with info PC and reads nothing; PC = 65535
raises with info 65536 after the byte at 65535 was read. PC, AC and FLAG keep their values. -/
def Obligations.FetchFaults : Prop :=
  ∀ s : State, s.run = .running → s.Transparent →
    (65535 < s.pc → ∃ t, step s = .next t ∧ Raises .addressOutOfRange s.pc s t ∧
      SameMemory s t ∧ t.lines = s.lines ∧ t.hits = s.hits ∧
      t.misses = s.misses + missesOnFault) ∧
    (s.pc = 65535 → ∃ t, step s = .next t ∧ Raises .addressOutOfRange 65536 s t ∧
      SameMemory s t ∧ t.isHit 65535 = true ∧
      t.accesses = s.accesses + 1 + missesOnFault)

/-- A word placed from outside at PC is the instruction that the next step runs, and placing it
changes no other byte and no register. The model's own interface (log 16). -/
def Obligations.PlacedWordIsRunNext : Prop :=
  ∀ (s : State) (w : Word), s.Legal → s.run = .running → s.pc + 1 < Config.memSize →
    (∃ u, step (s.withFetchWord 16 w.toNat) = exec (decodeWord w) u ∧
      SameToProgram (s.withFetchWord 16 w.toNat) u) ∧
    (s.withFetchWord 16 w.toNat).accesses = s.accesses ∧
    { s.withFetchWord 16 w.toNat with mem := s.mem, lines := s.lines } = s ∧
    ∀ a, a ≠ s.pc → a ≠ s.pc + 1 → (s.withFetchWord 16 w.toNat).mem.read a = s.mem.read a

/-- 30_encoding.md, assembly syntax, form by form: LOAD, ADD, SUB and MUL take `#n`, the eight
word-index mnemonics take `@n`, START, DISP and HALT take nothing, each with the word
`opcode * 4096 + n`; `.word v` is v; every other form, and an n or v out of range, has no word. That
`.word` exists and that the other forms are illegal is the spec's D15 (log 23). -/
def Obligations.AssembledStatementsDecode : Prop :=
  (∀ p ∈ [(Mnemonic.load, 0x1), (.add, 0x7), (.sub, 0x9), (.mul, 0xB)], ∀ n : Nat,
    (n ≤ 4095 → AssemblesTo (.statement p.1 (.hash n)) p.2 n) ∧
    (4095 < n → assembleLine (.statement p.1 (.hash n)) = none) ∧
    assembleLine (.statement p.1 (.slot n)) = none ∧
    assembleLine (.statement p.1 .absent) = none) ∧
  (∀ p ∈ [(Mnemonic.loadm, 0x2), (.store, 0x3), (.cmpm, 0x4), (.cjmp, 0x5), (.jmp, 0x6),
      (.addm, 0x8), (.subm, 0xA), (.mulm, 0xC)], ∀ n : Nat,
    (n ≤ 4095 → AssemblesTo (.statement p.1 (.slot n)) p.2 n) ∧
    (4095 < n → assembleLine (.statement p.1 (.slot n)) = none) ∧
    assembleLine (.statement p.1 (.hash n)) = none ∧
    assembleLine (.statement p.1 .absent) = none) ∧
  (∀ p ∈ [(Mnemonic.start, 0x0), (.disp, 0xD), (.halt, 0xE)],
    AssemblesTo (.statement p.1 .absent) p.2 0 ∧
    ∀ n : Nat, assembleLine (.statement p.1 (.hash n)) = none ∧
      assembleLine (.statement p.1 (.slot n)) = none) ∧
  (∀ v : Nat, (v ≤ 65535 → ∃ w : Word, assembleLine (.dataWord v) = some w ∧ w.toNat = v) ∧
    (65535 < v → assembleLine (.dataWord v) = none))

/-! ### Loads and stores (40_load_store.md) -/

/-- 40_load_store.md R100: LOAD's words, its result zero-extended and never negative, and its frame.
-/
def Obligations.LoadImmediateResult : Prop :=
  ∀ (n : Nat) (s : State), n ≤ 4095 →
    decodeWord (BitVec.ofNat 16 (0x1000 + n)) = .load n ∧
    ∃ t, exec (.load n) s = .next t ∧ t.ac.toNat = n ∧ signed16 t.ac = n ∧ OnlyAcWritten s t

/-- 40_load_store.md R101: LOADM's words, its result for every absAddr inside memory, its frame, and
where it faults. -/
def Obligations.LoadmResult : Prop :=
  ∀ n : Nat,
    (n ≤ 4095 → decodeWord (BitVec.ofNat 16 (0x2000 + n)) = .loadm n) ∧
    (∀ s : State, s.Transparent → s.absAddr n + 1 < Config.memSize →
      ∃ t, exec (.loadm n) s = .next t ∧
        t.ac.toNat = (s.mem.read (s.loadAddress + 2 * n)).toNat +
          256 * (s.mem.read (s.loadAddress + 2 * n + 1)).toNat ∧
        t.flag = s.flag ∧ AdvancedAfterRead s t) ∧
    FaultsAsMemoryOperand (.loadm n) n

/-- 40_load_store.md R102: STORE's words, the two bytes it writes, its frame, that every later
fetch sees memory as it left it, and its two faults: at a > 65535 nothing is written and nothing
counted; at a = 65535 the low byte is written, the line holds it, and the fault follows. -/
def Obligations.StoreResult : Prop :=
  ∀ n : Nat,
    (n ≤ 4095 → decodeWord (BitVec.ofNat 16 (0x3000 + n)) = .store n) ∧
    ∀ s : State, s.Legal →
      (s.absAddr n + 1 < Config.memSize → ∃ t, exec (.store n) s = .next t ∧
        (∀ b, t.mem.read b =
          if b = s.loadAddress + 2 * n then s.ac.extractLsb' 0 8
          else if b = s.loadAddress + 2 * n + 1 then s.ac.extractLsb' 8 8
          else s.mem.read b) ∧
        t.pc = s.pc + 2 ∧ t.ac = s.ac ∧ t.flag = s.flag ∧ SameControl s t ∧
        t.Transparent ∧ t.accesses = s.accesses + 2 ∧
        ∀ p, p + 1 < Config.memSize → ∃ u, (t.setPc p).fetch = .done (t.wordAt p) u) ∧
      (65535 < s.absAddr n → ∃ t, exec (.store n) s = .next t ∧
        Raises .addressOutOfRange (s.absAddr n) s t ∧ SameMemory s t ∧ SameCache s t) ∧
      (s.absAddr n = 65535 → ∃ t, exec (.store n) s = .next t ∧
        Raises .addressOutOfRange 65536 s t ∧
        (∀ b, t.mem.read b = if b = 65535 then s.ac.extractLsb' 0 8 else s.mem.read b) ∧
        t.isHit 65535 = true ∧ (t.lineOf 65535).data[blockOffset 65535] = s.ac.extractLsb' 0 8 ∧
        t.Transparent ∧ t.accesses = s.accesses + 1)

/-! ### Compare and control transfer (41_compare_branch.md) -/

/-- 41_compare_branch.md R110: CMPM's words, its strict signed comparison, its frame (AC unchanged)
and where it faults. -/
def Obligations.CmpmResult : Prop :=
  ∀ n : Nat,
    (n ≤ 4095 → decodeWord (BitVec.ofNat 16 (0x4000 + n)) = .cmpm n) ∧
    (∀ s : State, s.Transparent → s.absAddr n + 1 < Config.memSize →
      ∃ t, exec (.cmpm n) s = .next t ∧
        t.flag = decide (s.ac.toInt > (s.wordAt (s.loadAddress + 2 * n)).toInt) ∧
        t.ac = s.ac ∧ AdvancedAfterRead s t) ∧
    FaultsAsMemoryOperand (.cmpm n) n

/-- 41_compare_branch.md R111: CJMP's words, where it goes, its frame (FLAG unchanged), and that a
taken target which cannot be fetched faults at the next step's fetch, not before. -/
def Obligations.CjmpResult : Prop :=
  ∀ n : Nat,
    (n ≤ 4095 → decodeWord (BitVec.ofNat 16 (0x5000 + n)) = .cjmp n) ∧
    ∀ s : State, ∃ t, exec (.cjmp n) s = .next t ∧
      t.pc = (if s.flag then s.loadAddress + 2 * n else s.pc + 2) ∧ t.ac = s.ac ∧
      t.flag = s.flag ∧ SameMemory s t ∧ SameCache s t ∧ SameControl s t ∧
      (s.run = .running → s.Transparent → 65534 < t.pc → ∃ u, step t = .next u ∧
        Raises .addressOutOfRange (max 65536 t.pc) t u)

/-- 41_compare_branch.md R112: JMP's words, where it goes, its frame, and that a target which cannot
be fetched faults at the next step's fetch, not before. -/
def Obligations.JmpResult : Prop :=
  ∀ n : Nat,
    (n ≤ 4095 → decodeWord (BitVec.ofNat 16 (0x6000 + n)) = .jmp n) ∧
    ∀ s : State, ∃ t, exec (.jmp n) s = .next t ∧
      t.pc = s.loadAddress + 2 * n ∧ t.ac = s.ac ∧
      t.flag = s.flag ∧ SameMemory s t ∧ SameCache s t ∧ SameControl s t ∧
      (s.run = .running → s.Transparent → 65534 < s.loadAddress + 2 * n →
        ∃ u, step t = .next u ∧
          Raises .addressOutOfRange (max 65536 (s.loadAddress + 2 * n)) t u)

/-! ### Arithmetic (42_arithmetic.md) -/

/-- 42_arithmetic.md R121, R123 and R125: the words of ADD, SUB and MUL, the exact result modulo
65536, and the frame. -/
def Obligations.ImmediateArithmeticResults : Prop :=
  ∀ (n : Nat) (s : State), n ≤ 4095 →
    (decodeWord (BitVec.ofNat 16 (0x7000 + n)) = .add n ∧
      ∃ t, exec (.add n) s = .next t ∧
        (t.ac.toNat : Int) = ((s.ac.toNat : Int) + n) % 65536 ∧ OnlyAcWritten s t) ∧
    (decodeWord (BitVec.ofNat 16 (0x9000 + n)) = .sub n ∧
      ∃ t, exec (.sub n) s = .next t ∧
        (t.ac.toNat : Int) = ((s.ac.toNat : Int) - n) % 65536 ∧ OnlyAcWritten s t) ∧
    (decodeWord (BitVec.ofNat 16 (0xB000 + n)) = .mul n ∧
      ∃ t, exec (.mul n) s = .next t ∧
        (t.ac.toNat : Int) = ((s.ac.toNat : Int) * n) % 65536 ∧ OnlyAcWritten s t)

/-- 42_arithmetic.md R122, R124 and R126: the words of ADDM, SUBM and MULM, the exact result modulo
65536 for every absAddr inside memory, the frame, and where they fault. -/
def Obligations.MemoryArithmeticResults : Prop :=
  ∀ n : Nat,
    (n ≤ 4095 → decodeWord (BitVec.ofNat 16 (0x8000 + n)) = .addm n ∧
      decodeWord (BitVec.ofNat 16 (0xA000 + n)) = .subm n ∧
      decodeWord (BitVec.ofNat 16 (0xC000 + n)) = .mulm n) ∧
    (∀ s : State, s.Transparent → s.absAddr n + 1 < Config.memSize →
      (∃ t, exec (.addm n) s = .next t ∧
        (t.ac.toNat : Int) =
          ((s.ac.toNat : Int) + (s.wordAt (s.loadAddress + 2 * n)).toNat) % 65536 ∧
        t.flag = s.flag ∧ AdvancedAfterRead s t) ∧
      (∃ t, exec (.subm n) s = .next t ∧
        (t.ac.toNat : Int) =
          ((s.ac.toNat : Int) - (s.wordAt (s.loadAddress + 2 * n)).toNat) % 65536 ∧
        t.flag = s.flag ∧ AdvancedAfterRead s t) ∧
      (∃ t, exec (.mulm n) s = .next t ∧
        (t.ac.toNat : Int) =
          ((s.ac.toNat : Int) * (s.wordAt (s.loadAddress + 2 * n)).toNat) % 65536 ∧
        t.flag = s.flag ∧ AdvancedAfterRead s t)) ∧
    FaultsAsMemoryOperand (.addm n) n ∧ FaultsAsMemoryOperand (.subm n) n ∧
    FaultsAsMemoryOperand (.mulm n) n

/-- 42_arithmetic.md, signedness: the unsigned formula serves the signed reading too, for sums,
differences and products, and the signed value of the result is the exact signed result wrapped to
16 bits. -/
def Obligations.ArithmeticIsSignednessFree : Prop :=
  ∀ a m : Word,
    addWords a m = trunc16 (signed16 a + signed16 m) ∧
    subWords a m = trunc16 (signed16 a - signed16 m) ∧
    mulWords a m = trunc16 (signed16 a * signed16 m) ∧
    signed16 (addWords a m) = (signed16 a + signed16 m).bmod 65536 ∧
    signed16 (subWords a m) = (signed16 a - signed16 m).bmod 65536 ∧
    signed16 (mulWords a m) = (signed16 a * signed16 m).bmod 65536

/-! ### System instructions and the invalid opcode (43_system.md) -/

/-- 43_system.md R130: START's words, any operand, and that it changes PC only. -/
def Obligations.StartResult : Prop :=
  ∀ (n : Nat) (s : State), n ≤ 4095 →
    decodeWord (BitVec.ofNat 16 (0x0000 + n)) = .start n ∧
    ∃ t, exec (.start n) s = .next t ∧ t.ac = s.ac ∧ OnlyAcWritten s t

/-- 43_system.md, DISP: its words, any operand; it appends signed16(AC) to OUT, changes PC and
nothing else. -/
def Obligations.DispResult : Prop :=
  ∀ (n : Nat) (s : State), n ≤ 4095 →
    decodeWord (BitVec.ofNat 16 (0xD000 + n)) = .disp n ∧
    ∃ t, exec (.disp n) s = .next t ∧ t.out = s.out ++ [s.ac.toInt] ∧ t.pc = s.pc + 2 ∧
      t.ac = s.ac ∧ t.flag = s.flag ∧ SameMemory s t ∧ SameCache s t ∧ t.run = s.run ∧
      t.fault = s.fault ∧ t.loadAddress = s.loadAddress ∧ t.initialPc = s.initialPc

/-- 43_system.md, HALT: its words, any operand; RUN becomes halted, PC keeps the HALT's address,
nothing else changes, and no step follows. -/
def Obligations.HaltResult : Prop :=
  ∀ (n : Nat) (s : State), n ≤ 4095 →
    decodeWord (BitVec.ofNat 16 (0xE000 + n)) = .halt n ∧
    ∃ t, exec (.halt n) s = .next t ∧ t.run = .halted ∧ t.pc = s.pc ∧ t.ac = s.ac ∧
      t.flag = s.flag ∧ SameMemory s t ∧ SameCache s t ∧ t.out = s.out ∧ t.fault = s.fault ∧
      t.loadAddress = s.loadAddress ∧ t.initialPc = s.initialPc ∧
      step t = .fault .stepAfterHalt

/-- 43_system.md, opcode 0xF: executing any word 0xF000..0xFFFF raises InvalidOpcode with the word as
info; nothing else changes; no further step follows. -/
def Obligations.InvalidOpcodeResult : Prop :=
  ∀ (n : Nat) (s : State), n ≤ 4095 →
    decodeWord (BitVec.ofNat 16 (0xF000 + n)) = .invalid n ∧
    ∃ t, exec (.invalid n) s = .next t ∧ Raises .invalidOpcode (0xF000 + n) s t ∧
      SameMemory s t ∧ SameCache s t ∧ step t = .fault .stepAfterFault

/-- 95_test_vectors.md S8, from opcode 0xF of 43_system.md: a step on a word whose top nibble is 0xF
fails with InvalidOpcode, PC stays, memory stays, and no run goes further. -/
def Obligations.InvalidWordEndsTheRun : Prop :=
  ∀ s : State, s.Legal → s.run = .running → s.pc + 1 < Config.memSize →
    0xF000 ≤ (s.wordAt s.pc).toNat →
    ∃ t, step s = .next t ∧ Raises .invalidOpcode (s.wordAt s.pc).toNat s t ∧
      SameMemory s t ∧ ∀ (n : Nat) (u : State), StepsTo n t u → u = t

/-! ### Faults and runs (60_exceptions.md, 70_reset_and_hazards.md) -/

/-- 60_exceptions.md, the effect of a raise: a step that ends faulted leaves PC, AC, FLAG, OUT and
the configuration as they were, and records the fault. Memory is not precise: the byte at 65535 may
be written, every other byte stays. That PC, AC and FLAG stay for AddressOutOfRange is the spec's
choice D8 (log 9). -/
def Obligations.FaultsKeepRegistersOutputAndAllBytesButTheLast : Prop :=
  ∀ s t : State, step s = .next t → t.run = .faulted →
    t.pc = s.pc ∧ t.ac = s.ac ∧ t.flag = s.flag ∧ t.out = s.out ∧
    t.loadAddress = s.loadAddress ∧ t.initialPc = s.initialPc ∧
    (∃ r, t.fault = some r ∧ r.code = r.kind.code) ∧
    ∀ a, a ≠ 65535 → t.mem.read a = s.mem.read a

/-- 60_exceptions.md, which operation raises which fault: a running machine's step faults only on an
unreadable PC, on a word of opcode 0xF, or on a memory operand whose word is not inside memory. -/
def Obligations.FaultsHaveTheListedCauses : Prop :=
  ∀ s t : State, s.Legal → step s = .next t → t.run = .faulted →
    65534 < s.pc ∨
    ∃ i, InstrAtPc s i ∧ (i.opcode = 0xF ∨
      (i.opcode ∈ [0x2, 0x3, 0x4, 0x8, 0xA, 0xC] ∧ 65534 < s.absAddr i.operand))

/-- 60_exceptions.md, end of a run: a JMP to its own address, and a CJMP to its own address while
FLAG is true, run forever, which is legal. -/
def Obligations.SelfJumpRunsForever : Prop :=
  ∀ (n : Nat) (s : State), s.Legal → s.run = .running →
    (InstrAtPc s (.jmp n) ∨ (InstrAtPc s (.cjmp n) ∧ s.flag = true)) →
    s.absAddr n = s.pc → RunsForever s

/-- 60_exceptions.md, end of a run: a run that starts running ends halted, ends faulted, or goes on
forever; it has at most one end, and an infinite run reaches neither. -/
def Obligations.ARunHaltsFaultsOrGoesOnForever : Prop :=
  ∀ s : State, s.run = .running →
    ((∃ t, EndsHalted s t) ∨ (∃ t, EndsFaulted s t) ∨ RunsForever s) ∧
    (∀ t u, (EndsHalted s t ∨ EndsFaulted s t) → (EndsHalted s u ∨ EndsFaulted s u) → t = u) ∧
    (RunsForever s → SafeRun s ∧ ∀ t, ¬ EndsHalted s t)

/-- 70_reset_and_hazards.md, program load: when the words fit, byte for byte the program lies at
LOAD_ADDRESS, whichever way LOAD_VIA_CACHE is set; every other byte, every register and the control
state stay. Through the Cache, or straight to Memory while no line is valid (log 27: the host loads
once, after construction), the state stays legal (20_memory.md R56); without the Cache, LINE and the counters stay too. -/
def Obligations.ProgramLoadWritesTheWords : Prop :=
  ∀ (b : Bool) (ws : List Word) (s : State), s.Legal →
    s.loadAddress + 2 * ws.length ≤ Config.memSize →
    (∀ i : Fin ws.length, (s.loadProgramVia b ws).wordAt (s.loadAddress + 2 * i) = ws[i]) ∧
    (∀ a, a < s.loadAddress ∨ s.loadAddress + 2 * ws.length ≤ a →
      (s.loadProgramVia b ws).mem.read a = s.mem.read a) ∧
    (s.loadProgramVia b ws).pc = s.pc ∧ (s.loadProgramVia b ws).ac = s.ac ∧
    (s.loadProgramVia b ws).flag = s.flag ∧ SameControl s (s.loadProgramVia b ws) ∧
    (b = true ∨ (∀ i : Fin Config.numLines, (s.lines[i]).valid = false) →
      (s.loadProgramVia b ws).Legal) ∧
    (b = false → SameCache s (s.loadProgramVia b ws)) ∧
    (s.loadProgram ws).mem = (s.loadProgramVia b ws).mem

/-- 70_reset_and_hazards.md, the counts of a cached program load after construction: n misses and n
hits when LOAD_ADDRESS is even, n+1 misses and n-1 hits when it is odd. -/
def Obligations.CachedLoadCounts : Prop :=
  ∀ (ws : List Word) (la ip : Nat) (m : Memory), m.wf = true → ws ≠ [] →
    la + 2 * ws.length ≤ Config.memSize →
    (la % 2 = 0 →
      ((State.construct la ip m).loadProgramVia true ws).misses = ws.length ∧
      ((State.construct la ip m).loadProgramVia true ws).hits = ws.length) ∧
    (la % 2 = 1 →
      ((State.construct la ip m).loadProgramVia true ws).misses = ws.length + 1 ∧
      ((State.construct la ip m).loadProgramVia true ws).hits = ws.length - 1)

/-- 70_reset_and_hazards.md, load fault: a program that does not fit makes the run faulted with the
first address that failed; PC, AC and FLAG stay, the words before stay written, no byte below
LOAD_ADDRESS changes, and no step follows. The low byte of a word at 65535 stays written when the
load goes through the Cache; without the Cache that byte keeps its value, and so do LINE and the
counters. Through the Cache, or while no line is valid (log 27), the state stays legal. -/
def Obligations.TooLongProgramFaultsTheLoad : Prop :=
  ∀ (b : Bool) (ws : List Word) (s : State), s.Legal → ws ≠ [] →
    Config.memSize < s.loadAddress + 2 * ws.length →
    Raises .addressOutOfRange (max 65536 s.loadAddress) s (s.loadProgramVia b ws) ∧
    (∀ i : Fin ws.length, s.loadAddress + 2 * i + 1 < Config.memSize →
      (s.loadProgramVia b ws).wordAt (s.loadAddress + 2 * i) = ws[i]) ∧
    (∀ i : Fin ws.length, s.loadAddress + 2 * i = 65535 →
      (s.loadProgramVia b ws).mem.read 65535 =
        if b = true then (ws[i]).extractLsb' 0 8 else s.mem.read 65535) ∧
    (∀ a, a < s.loadAddress ∨ 65535 < a →
      (s.loadProgramVia b ws).mem.read a = s.mem.read a) ∧
    (b = false → SameCache s (s.loadProgramVia b ws)) ∧
    (b = true ∨ (∀ i : Fin Config.numLines, (s.lines[i]).valid = false) →
      (s.loadProgramVia b ws).Legal) ∧
    step (s.loadProgramVia b ws) = .fault .stepAfterFault

/-- 70_reset_and_hazards.md, alignment: when INITIAL_PC and LOAD_ADDRESS have one parity, PC keeps
that parity along every run from construction; a step keeps it from any state. -/
def Obligations.PcKeepsTheParityOfTheProgram : Prop :=
  (∀ s t : State, s.pc % 2 = s.loadAddress % 2 → step s = .next t →
    t.pc % 2 = t.loadAddress % 2) ∧
  (∀ (la ip : Nat) (m : Memory) (n : Nat) (t : State), ip % 2 = la % 2 →
    StepsTo n (State.construct la ip m) t → t.pc % 2 = la % 2)
end

