-- ==== Sys2Proof/Laws/Memory.lean ====
section
/-! SUPPORT. Memory: read after write, the canonical form, and equality from equal reads. -/

namespace Sys2Proof.Machine

@[simp] theorem Memory.read_nil (a : Nat) : Memory.read [] a = Config.unlistedByte := rfl

theorem Memory.read_cons (b : Nat) (v : Byte) (rest : Memory) (a : Nat) :
    Memory.read ((b, v) :: rest) a = if b = a then v else Memory.read rest a := rfl

/-- What the canonical form says of a list with a head. -/
theorem Memory.wfFrom_cons {lo a : Nat} {v : Byte} {rest : Memory} :
    Memory.wfFrom lo ((a, v) :: rest) = true ↔
      lo ≤ a ∧ a < Config.memSize ∧ v ≠ Config.unlistedByte ∧
        Memory.wfFrom (a + 1) rest = true := by
  simp [Memory.wfFrom, and_assoc]

theorem Memory.wfFrom_mono {lo lo' : Nat} (h : lo' ≤ lo) :
    ∀ {m : Memory}, m.wfFrom lo = true → m.wfFrom lo' = true
  | [], _ => rfl
  | (_, _) :: _, hm => by
    rw [Memory.wfFrom_cons] at hm ⊢
    exact ⟨h.trans hm.1, hm.2⟩

/-- Below its lowest entry a canonical memory reads as unlisted. -/
theorem Memory.read_below {lo a : Nat} (h : a < lo) :
    ∀ {m : Memory}, m.wfFrom lo = true → m.read a = Config.unlistedByte
  | [], _ => rfl
  | (b, v) :: rest, hm => by
    rw [Memory.wfFrom_cons] at hm
    rw [Memory.read_cons, if_neg (by omega)]
    exact Memory.read_below (by omega) hm.2.2.2

/-- Outside memory a canonical memory reads as unlisted. -/
theorem Memory.read_above {a : Nat} (h : Config.memSize ≤ a) :
    ∀ {lo : Nat} {m : Memory}, m.wfFrom lo = true → m.read a = Config.unlistedByte
  | _, [], _ => rfl
  | _, (b, v) :: rest, hm => by
    rw [Memory.wfFrom_cons] at hm
    rw [Memory.read_cons, if_neg (by omega)]
    exact Memory.read_above h hm.2.2.2

/-- A byte write, read back anywhere, in a memory whose listed addresses from `a` on rise: the one
lemma about `write` that needs the canonical form. -/
theorem Memory.read_write_of_wfFrom {a a' : Nat} {v : Byte} :
    ∀ {lo : Nat} {m : Memory}, m.wfFrom lo = true →
      (m.write a v).read a' = if a' = a then v else m.read a'
  | _, [], _ => by
    unfold Memory.write
    split <;> rename_i h <;> simp only [Memory.read_nil, Memory.read_cons]
    · split <;> simp [h]
    · simp only [eq_comm]
  | _, (b, w) :: rest, hm => by
    rw [Memory.wfFrom_cons] at hm
    have hrest := hm.2.2.2
    have ih := Memory.read_write_of_wfFrom (a := a) (a' := a') (v := v) hrest
    unfold Memory.write
    by_cases hab : a < b
    · have hb : Memory.read rest a = Config.unlistedByte := Memory.read_below (by omega) hrest
      rw [if_pos hab]
      by_cases hv : v = Config.unlistedByte
      · rw [if_pos hv]
        by_cases ha' : a' = a
        · subst ha'
          rw [if_pos rfl, Memory.read_cons, if_neg (by omega), hb, hv]
        · rw [if_neg ha']
      · rw [if_neg hv, Memory.read_cons]
        by_cases ha' : a' = a
        · rw [if_pos ha'.symm, if_pos ha']
        · rw [if_neg (Ne.symm ha'), if_neg ha']
    · rw [if_neg hab]
      by_cases hab' : a = b
      · subst hab'
        rw [if_pos rfl]
        by_cases hv : v = Config.unlistedByte
        · rw [if_pos hv, Memory.read_cons]
          by_cases ha' : a' = a
          · subst ha'
            rw [if_pos rfl, hv]
            exact Memory.read_below (by omega) hrest
          · rw [if_neg ha', if_neg (Ne.symm ha')]
        · rw [if_neg hv, Memory.read_cons, Memory.read_cons]
          by_cases ha' : a' = a
          · rw [if_pos ha'.symm, if_pos ha']
          · rw [if_neg (Ne.symm ha'), if_neg ha', if_neg (Ne.symm ha')]
      · rw [if_neg hab', Memory.read_cons, Memory.read_cons, ih]
        by_cases ha' : a' = a
        · rw [if_neg (by omega), if_pos ha', if_pos ha']
        · rw [if_neg ha', if_neg ha']

/-- A byte reads back as it was written. -/
theorem Memory.read_write_same {m : Memory} (h : m.wf = true) (a : Nat) (v : Byte) :
    (m.write a v).read a = v := by
  rw [Memory.read_write_of_wfFrom h, if_pos rfl]

/-- A byte write leaves every other byte alone, in any memory. -/
theorem Memory.read_write_ne {a a' : Nat} (hne : a' ≠ a) (v : Byte) :
    ∀ m : Memory, (m.write a v).read a' = m.read a'
  | [] => by
    unfold Memory.write
    split
    · rfl
    · rw [Memory.read_cons, if_neg (Ne.symm hne)]
  | (b, w) :: rest => by
    have ih := Memory.read_write_ne hne v rest
    unfold Memory.write
    split
    · split
      · rfl
      · rw [Memory.read_cons, if_neg (Ne.symm hne)]
    · split
      · subst b
        split
        · rw [Memory.read_cons, if_neg (Ne.symm hne)]
        · rw [Memory.read_cons, Memory.read_cons, if_neg (Ne.symm hne), if_neg (Ne.symm hne)]
      · rw [Memory.read_cons, Memory.read_cons, ih]

theorem Memory.wfFrom_write {a : Nat} (ha : a < Config.memSize) (v : Byte) :
    ∀ {lo : Nat} {m : Memory}, lo ≤ a → m.wfFrom lo = true → (m.write a v).wfFrom lo = true
  | _, [], hlo, _ => by
    unfold Memory.write
    split
    · rfl
    · exact Memory.wfFrom_cons.2 ⟨hlo, ha, ‹_›, rfl⟩
  | _, (b, w) :: rest, hlo, hm => by
    have hm' := Memory.wfFrom_cons.1 hm
    unfold Memory.write
    split
    · split
      · exact hm
      · exact Memory.wfFrom_cons.2
          ⟨hlo, ha, ‹_›, Memory.wfFrom_cons.2 ⟨by omega, hm'.2⟩⟩
    · split
      · subst b
        split
        · exact Memory.wfFrom_mono (by omega) hm'.2.2.2
        · exact Memory.wfFrom_cons.2 ⟨hlo, ha, ‹_›, hm'.2.2.2⟩
      · exact Memory.wfFrom_cons.2
          ⟨hm'.1, hm'.2.1, hm'.2.2.1, Memory.wfFrom_write ha v (by omega) hm'.2.2.2⟩

/-- A byte write inside memory keeps the canonical form. -/
theorem Memory.wf_write {m : Memory} (h : m.wf = true) {a : Nat} (ha : a < Config.memSize)
    (v : Byte) : (m.write a v).wf = true :=
  Memory.wfFrom_write ha v (Nat.zero_le a) h

/-- The memory of the reset state is in canonical form. -/
theorem State.reset_mem_wf : State.reset.mem.wf = true := rfl

theorem Memory.eq_of_wfFrom :
    ∀ {lo : Nat} {m m' : Memory}, m.wfFrom lo = true → m'.wfFrom lo = true →
      (∀ a, m.read a = m'.read a) → m = m'
  | _, [], [], _, _, _ => rfl
  | _, [], (b, w) :: rest, _, h', hr => by
    have h'' := Memory.wfFrom_cons.1 h'
    have := hr b
    rw [Memory.read_nil, Memory.read_cons, if_pos rfl] at this
    exact absurd this.symm h''.2.2.1
  | _, (b, w) :: rest, [], h, _, hr => by
    have h'' := Memory.wfFrom_cons.1 h
    have := hr b
    rw [Memory.read_nil, Memory.read_cons, if_pos rfl] at this
    exact absurd this h''.2.2.1
  | _, (b, w) :: rest, (b', w') :: rest', h, h', hr => by
    have hb := Memory.wfFrom_cons.1 h
    have hb' := Memory.wfFrom_cons.1 h'
    have heq : b = b' := by
      by_contra hne
      rcases Nat.lt_or_gt_of_ne hne with hlt | hgt
      · have := hr b
        rw [Memory.read_cons, if_pos rfl, Memory.read_cons, if_neg (by omega),
          Memory.read_below (by omega) hb'.2.2.2] at this
        exact hb.2.2.1 this
      · have := hr b'
        rw [Memory.read_cons, if_neg hne, Memory.read_cons, if_pos rfl,
          Memory.read_below (by omega) hb.2.2.2] at this
        exact hb'.2.2.1 this.symm
    subst heq
    have hw : w = w' := by
      have := hr b
      rwa [Memory.read_cons, if_pos rfl, Memory.read_cons, if_pos rfl] at this
    subst hw
    have hrest : rest = rest' := by
      refine Memory.eq_of_wfFrom hb.2.2.2 hb'.2.2.2 fun a => ?_
      by_cases hab : b = a
      · subst hab
        rw [Memory.read_below (by omega) hb.2.2.2, Memory.read_below (by omega) hb'.2.2.2]
      · have := hr a
        rwa [Memory.read_cons, if_neg hab, Memory.read_cons, if_neg hab] at this
    rw [hrest]

/-- Canonical memories that read alike are equal data. -/
theorem Memory.eq_of_read_eq {m m' : Memory} (h : m.wf = true) (h' : m'.wf = true)
    (hr : ∀ a, m.read a = m'.read a) : m = m' :=
  Memory.eq_of_wfFrom h h' hr

end Sys2Proof.Machine
end

