-- ==== Sys2Proof/Laws/State.lean ====
section
/-! SUPPORT. One lemma for each field of each update of the state, true by `rfl`, so that no later
proof unfolds a record update. -/

namespace Sys2Proof.Machine

variable (s : State)

/-! ### setPc -/

@[simp] theorem State.setPc_pc (v : Nat) : (s.setPc v).pc = v := rfl
@[simp] theorem State.setPc_ac (v : Nat) : (s.setPc v).ac = s.ac := rfl
@[simp] theorem State.setPc_flag (v : Nat) : (s.setPc v).flag = s.flag := rfl
@[simp] theorem State.setPc_run (v : Nat) : (s.setPc v).run = s.run := rfl
@[simp] theorem State.setPc_fault (v : Nat) : (s.setPc v).fault = s.fault := rfl
@[simp] theorem State.setPc_loadAddress (v : Nat) : (s.setPc v).loadAddress = s.loadAddress := rfl
@[simp] theorem State.setPc_initialPc (v : Nat) : (s.setPc v).initialPc = s.initialPc := rfl
@[simp] theorem State.setPc_lines (v : Nat) : (s.setPc v).lines = s.lines := rfl
@[simp] theorem State.setPc_hits (v : Nat) : (s.setPc v).hits = s.hits := rfl
@[simp] theorem State.setPc_misses (v : Nat) : (s.setPc v).misses = s.misses := rfl
@[simp] theorem State.setPc_mem (v : Nat) : (s.setPc v).mem = s.mem := rfl
@[simp] theorem State.setPc_out (v : Nat) : (s.setPc v).out = s.out := rfl

/-! ### advance -/

@[simp] theorem State.advance_pc : s.advance.pc = s.pc + 2 := rfl
@[simp] theorem State.advance_ac : s.advance.ac = s.ac := rfl
@[simp] theorem State.advance_flag : s.advance.flag = s.flag := rfl
@[simp] theorem State.advance_run : s.advance.run = s.run := rfl
@[simp] theorem State.advance_fault : s.advance.fault = s.fault := rfl
@[simp] theorem State.advance_loadAddress : s.advance.loadAddress = s.loadAddress := rfl
@[simp] theorem State.advance_initialPc : s.advance.initialPc = s.initialPc := rfl
@[simp] theorem State.advance_lines : s.advance.lines = s.lines := rfl
@[simp] theorem State.advance_hits : s.advance.hits = s.hits := rfl
@[simp] theorem State.advance_misses : s.advance.misses = s.misses := rfl
@[simp] theorem State.advance_mem : s.advance.mem = s.mem := rfl
@[simp] theorem State.advance_out : s.advance.out = s.out := rfl

/-! ### setAc -/

@[simp] theorem State.setAc_pc (v : Word) : (s.setAc v).pc = s.pc := rfl
@[simp] theorem State.setAc_ac (v : Word) : (s.setAc v).ac = v := rfl
@[simp] theorem State.setAc_flag (v : Word) : (s.setAc v).flag = s.flag := rfl
@[simp] theorem State.setAc_run (v : Word) : (s.setAc v).run = s.run := rfl
@[simp] theorem State.setAc_fault (v : Word) : (s.setAc v).fault = s.fault := rfl
@[simp] theorem State.setAc_loadAddress (v : Word) : (s.setAc v).loadAddress = s.loadAddress := rfl
@[simp] theorem State.setAc_initialPc (v : Word) : (s.setAc v).initialPc = s.initialPc := rfl
@[simp] theorem State.setAc_lines (v : Word) : (s.setAc v).lines = s.lines := rfl
@[simp] theorem State.setAc_hits (v : Word) : (s.setAc v).hits = s.hits := rfl
@[simp] theorem State.setAc_misses (v : Word) : (s.setAc v).misses = s.misses := rfl
@[simp] theorem State.setAc_mem (v : Word) : (s.setAc v).mem = s.mem := rfl
@[simp] theorem State.setAc_out (v : Word) : (s.setAc v).out = s.out := rfl

/-! ### setFlag -/

@[simp] theorem State.setFlag_pc (b : Bool) : (s.setFlag b).pc = s.pc := rfl
@[simp] theorem State.setFlag_ac (b : Bool) : (s.setFlag b).ac = s.ac := rfl
@[simp] theorem State.setFlag_flag (b : Bool) : (s.setFlag b).flag = b := rfl
@[simp] theorem State.setFlag_run (b : Bool) : (s.setFlag b).run = s.run := rfl
@[simp] theorem State.setFlag_fault (b : Bool) : (s.setFlag b).fault = s.fault := rfl
@[simp] theorem State.setFlag_loadAddress (b : Bool)
    : (s.setFlag b).loadAddress = s.loadAddress := rfl
@[simp] theorem State.setFlag_initialPc (b : Bool) : (s.setFlag b).initialPc = s.initialPc := rfl
@[simp] theorem State.setFlag_lines (b : Bool) : (s.setFlag b).lines = s.lines := rfl
@[simp] theorem State.setFlag_hits (b : Bool) : (s.setFlag b).hits = s.hits := rfl
@[simp] theorem State.setFlag_misses (b : Bool) : (s.setFlag b).misses = s.misses := rfl
@[simp] theorem State.setFlag_mem (b : Bool) : (s.setFlag b).mem = s.mem := rfl
@[simp] theorem State.setFlag_out (b : Bool) : (s.setFlag b).out = s.out := rfl

/-! ### halt -/

@[simp] theorem State.halt_pc : s.halt.pc = s.pc := rfl
@[simp] theorem State.halt_ac : s.halt.ac = s.ac := rfl
@[simp] theorem State.halt_flag : s.halt.flag = s.flag := rfl
@[simp] theorem State.halt_run : s.halt.run = .halted := rfl
@[simp] theorem State.halt_fault : s.halt.fault = s.fault := rfl
@[simp] theorem State.halt_loadAddress : s.halt.loadAddress = s.loadAddress := rfl
@[simp] theorem State.halt_initialPc : s.halt.initialPc = s.initialPc := rfl
@[simp] theorem State.halt_lines : s.halt.lines = s.lines := rfl
@[simp] theorem State.halt_hits : s.halt.hits = s.hits := rfl
@[simp] theorem State.halt_misses : s.halt.misses = s.misses := rfl
@[simp] theorem State.halt_mem : s.halt.mem = s.mem := rfl
@[simp] theorem State.halt_out : s.halt.out = s.out := rfl

/-! ### emit -/

@[simp] theorem State.emit_pc (v : Int) : (s.emit v).pc = s.pc := rfl
@[simp] theorem State.emit_ac (v : Int) : (s.emit v).ac = s.ac := rfl
@[simp] theorem State.emit_flag (v : Int) : (s.emit v).flag = s.flag := rfl
@[simp] theorem State.emit_run (v : Int) : (s.emit v).run = s.run := rfl
@[simp] theorem State.emit_fault (v : Int) : (s.emit v).fault = s.fault := rfl
@[simp] theorem State.emit_loadAddress (v : Int) : (s.emit v).loadAddress = s.loadAddress := rfl
@[simp] theorem State.emit_initialPc (v : Int) : (s.emit v).initialPc = s.initialPc := rfl
@[simp] theorem State.emit_lines (v : Int) : (s.emit v).lines = s.lines := rfl
@[simp] theorem State.emit_hits (v : Int) : (s.emit v).hits = s.hits := rfl
@[simp] theorem State.emit_misses (v : Int) : (s.emit v).misses = s.misses := rfl
@[simp] theorem State.emit_mem (v : Int) : (s.emit v).mem = s.mem := rfl
@[simp] theorem State.emit_out (v : Int) : (s.emit v).out = s.out ++ [v] := rfl

/-! ### countHit -/

@[simp] theorem State.countHit_pc : s.countHit.pc = s.pc := rfl
@[simp] theorem State.countHit_ac : s.countHit.ac = s.ac := rfl
@[simp] theorem State.countHit_flag : s.countHit.flag = s.flag := rfl
@[simp] theorem State.countHit_run : s.countHit.run = s.run := rfl
@[simp] theorem State.countHit_fault : s.countHit.fault = s.fault := rfl
@[simp] theorem State.countHit_loadAddress : s.countHit.loadAddress = s.loadAddress := rfl
@[simp] theorem State.countHit_initialPc : s.countHit.initialPc = s.initialPc := rfl
@[simp] theorem State.countHit_lines : s.countHit.lines = s.lines := rfl
@[simp] theorem State.countHit_hits : s.countHit.hits = s.hits + 1 := rfl
@[simp] theorem State.countHit_misses : s.countHit.misses = s.misses := rfl
@[simp] theorem State.countHit_mem : s.countHit.mem = s.mem := rfl
@[simp] theorem State.countHit_out : s.countHit.out = s.out := rfl

/-! ### countMiss -/

@[simp] theorem State.countMiss_pc : s.countMiss.pc = s.pc := rfl
@[simp] theorem State.countMiss_ac : s.countMiss.ac = s.ac := rfl
@[simp] theorem State.countMiss_flag : s.countMiss.flag = s.flag := rfl
@[simp] theorem State.countMiss_run : s.countMiss.run = s.run := rfl
@[simp] theorem State.countMiss_fault : s.countMiss.fault = s.fault := rfl
@[simp] theorem State.countMiss_loadAddress : s.countMiss.loadAddress = s.loadAddress := rfl
@[simp] theorem State.countMiss_initialPc : s.countMiss.initialPc = s.initialPc := rfl
@[simp] theorem State.countMiss_lines : s.countMiss.lines = s.lines := rfl
@[simp] theorem State.countMiss_hits : s.countMiss.hits = s.hits := rfl
@[simp] theorem State.countMiss_misses : s.countMiss.misses = s.misses + 1 := rfl
@[simp] theorem State.countMiss_mem : s.countMiss.mem = s.mem := rfl
@[simp] theorem State.countMiss_out : s.countMiss.out = s.out := rfl

/-! ### countMissOnFault -/

@[simp] theorem State.countMissOnFault_pc : s.countMissOnFault.pc = s.pc := rfl
@[simp] theorem State.countMissOnFault_ac : s.countMissOnFault.ac = s.ac := rfl
@[simp] theorem State.countMissOnFault_flag : s.countMissOnFault.flag = s.flag := rfl
@[simp] theorem State.countMissOnFault_run : s.countMissOnFault.run = s.run := rfl
@[simp] theorem State.countMissOnFault_fault : s.countMissOnFault.fault = s.fault := rfl
@[simp] theorem State.countMissOnFault_loadAddress : s.countMissOnFault.loadAddress = s.loadAddress :=
  rfl
@[simp] theorem State.countMissOnFault_initialPc : s.countMissOnFault.initialPc = s.initialPc := rfl
@[simp] theorem State.countMissOnFault_lines : s.countMissOnFault.lines = s.lines := rfl
@[simp] theorem State.countMissOnFault_hits : s.countMissOnFault.hits = s.hits := rfl
@[simp] theorem State.countMissOnFault_misses : s.countMissOnFault.misses = s.misses + missesOnFault :=
  rfl
@[simp] theorem State.countMissOnFault_mem : s.countMissOnFault.mem = s.mem := rfl
@[simp] theorem State.countMissOnFault_out : s.countMissOnFault.out = s.out := rfl

/-! ### setLine -/

@[simp] theorem State.setLine_pc (i : Fin Config.numLines) (l : CacheLine)
    : (s.setLine i l).pc = s.pc := rfl
@[simp] theorem State.setLine_ac (i : Fin Config.numLines) (l : CacheLine)
    : (s.setLine i l).ac = s.ac := rfl
@[simp] theorem State.setLine_flag (i : Fin Config.numLines) (l : CacheLine)
    : (s.setLine i l).flag = s.flag := rfl
@[simp] theorem State.setLine_run (i : Fin Config.numLines) (l : CacheLine)
    : (s.setLine i l).run = s.run := rfl
@[simp] theorem State.setLine_fault (i : Fin Config.numLines) (l : CacheLine)
    : (s.setLine i l).fault = s.fault := rfl
@[simp] theorem State.setLine_loadAddress (i : Fin Config.numLines) (l : CacheLine)
    : (s.setLine i l).loadAddress = s.loadAddress := rfl
@[simp] theorem State.setLine_initialPc (i : Fin Config.numLines) (l : CacheLine)
    : (s.setLine i l).initialPc = s.initialPc := rfl
@[simp] theorem State.setLine_lines (i : Fin Config.numLines) (l : CacheLine)
    : (s.setLine i l).lines = s.lines.set i l := rfl
@[simp] theorem State.setLine_hits (i : Fin Config.numLines) (l : CacheLine)
    : (s.setLine i l).hits = s.hits := rfl
@[simp] theorem State.setLine_misses (i : Fin Config.numLines) (l : CacheLine)
    : (s.setLine i l).misses = s.misses := rfl
@[simp] theorem State.setLine_mem (i : Fin Config.numLines) (l : CacheLine)
    : (s.setLine i l).mem = s.mem := rfl
@[simp] theorem State.setLine_out (i : Fin Config.numLines) (l : CacheLine)
    : (s.setLine i l).out = s.out := rfl

/-! ### setMem -/

@[simp] theorem State.setMem_pc (m : Memory) : (s.setMem m).pc = s.pc := rfl
@[simp] theorem State.setMem_ac (m : Memory) : (s.setMem m).ac = s.ac := rfl
@[simp] theorem State.setMem_flag (m : Memory) : (s.setMem m).flag = s.flag := rfl
@[simp] theorem State.setMem_run (m : Memory) : (s.setMem m).run = s.run := rfl
@[simp] theorem State.setMem_fault (m : Memory) : (s.setMem m).fault = s.fault := rfl
@[simp] theorem State.setMem_loadAddress (m : Memory)
    : (s.setMem m).loadAddress = s.loadAddress := rfl
@[simp] theorem State.setMem_initialPc (m : Memory) : (s.setMem m).initialPc = s.initialPc := rfl
@[simp] theorem State.setMem_lines (m : Memory) : (s.setMem m).lines = s.lines := rfl
@[simp] theorem State.setMem_hits (m : Memory) : (s.setMem m).hits = s.hits := rfl
@[simp] theorem State.setMem_misses (m : Memory) : (s.setMem m).misses = s.misses := rfl
@[simp] theorem State.setMem_mem (m : Memory) : (s.setMem m).mem = m := rfl
@[simp] theorem State.setMem_out (m : Memory) : (s.setMem m).out = s.out := rfl

/-! ### takeFault -/

@[simp] theorem State.takeFault_pc (k : FaultKind) (n : Nat) : (s.takeFault k n).pc = s.pc := rfl
@[simp] theorem State.takeFault_ac (k : FaultKind) (n : Nat) : (s.takeFault k n).ac = s.ac := rfl
@[simp] theorem State.takeFault_flag (k : FaultKind) (n : Nat)
    : (s.takeFault k n).flag = s.flag := rfl
@[simp] theorem State.takeFault_run (k : FaultKind) (n : Nat)
    : (s.takeFault k n).run = .faulted := rfl
@[simp] theorem State.takeFault_fault (k : FaultKind) (n : Nat)
    : (s.takeFault k n).fault = some { kind := k, code := k.code, info := n } := rfl
@[simp] theorem State.takeFault_loadAddress (k : FaultKind) (n : Nat)
    : (s.takeFault k n).loadAddress = s.loadAddress := rfl
@[simp] theorem State.takeFault_initialPc (k : FaultKind) (n : Nat)
    : (s.takeFault k n).initialPc = s.initialPc := rfl
@[simp] theorem State.takeFault_lines (k : FaultKind) (n : Nat)
    : (s.takeFault k n).lines = s.lines := rfl
@[simp] theorem State.takeFault_hits (k : FaultKind) (n : Nat)
    : (s.takeFault k n).hits = s.hits := rfl
@[simp] theorem State.takeFault_misses (k : FaultKind) (n : Nat)
    : (s.takeFault k n).misses = s.misses := rfl
@[simp] theorem State.takeFault_mem (k : FaultKind) (n : Nat) : (s.takeFault k n).mem = s.mem := rfl
@[simp] theorem State.takeFault_out (k : FaultKind) (n : Nat) : (s.takeFault k n).out = s.out := rfl

/-! ### fillLine -/

@[simp] theorem State.fillLine_pc (a : Nat) (buf : Vector Byte Config.blockSize)
    : (s.fillLine a buf).pc = s.pc := rfl
@[simp] theorem State.fillLine_ac (a : Nat) (buf : Vector Byte Config.blockSize)
    : (s.fillLine a buf).ac = s.ac := rfl
@[simp] theorem State.fillLine_flag (a : Nat) (buf : Vector Byte Config.blockSize)
    : (s.fillLine a buf).flag = s.flag := rfl
@[simp] theorem State.fillLine_run (a : Nat) (buf : Vector Byte Config.blockSize)
    : (s.fillLine a buf).run = s.run := rfl
@[simp] theorem State.fillLine_fault (a : Nat) (buf : Vector Byte Config.blockSize)
    : (s.fillLine a buf).fault = s.fault := rfl
@[simp] theorem State.fillLine_loadAddress (a : Nat) (buf : Vector Byte Config.blockSize)
    : (s.fillLine a buf).loadAddress = s.loadAddress := rfl
@[simp] theorem State.fillLine_initialPc (a : Nat) (buf : Vector Byte Config.blockSize)
    : (s.fillLine a buf).initialPc = s.initialPc := rfl
@[simp] theorem State.fillLine_lines (a : Nat) (buf : Vector Byte Config.blockSize)
    : (s.fillLine a buf).lines = s.lines.set (blockIndex a) { valid := true, tag := blockTag a, data := buf } :=
  rfl
@[simp] theorem State.fillLine_hits (a : Nat) (buf : Vector Byte Config.blockSize)
    : (s.fillLine a buf).hits = s.hits := rfl
@[simp] theorem State.fillLine_misses (a : Nat) (buf : Vector Byte Config.blockSize)
    : (s.fillLine a buf).misses = s.misses := rfl
@[simp] theorem State.fillLine_mem (a : Nat) (buf : Vector Byte Config.blockSize)
    : (s.fillLine a buf).mem = s.mem := rfl
@[simp] theorem State.fillLine_out (a : Nat) (buf : Vector Byte Config.blockSize)
    : (s.fillLine a buf).out = s.out := rfl

end Sys2Proof.Machine
end

