-- ==== Sys2Proof/Laws/Words.lean ====
section
/-! SUPPORT. Bytes and fields of a word, the signed reading, and narrowed arithmetic. -/

namespace Sys2Proof

/-! ### Bytes of a word -/

theorem lowByte_toNat (w : Word) : (lowByte w).toNat = w.toNat % 256 := by
  simp [lowByte]

theorem highByte_toNat (w : Word) : (highByte w).toNat = w.toNat / 256 := by
  have := w.isLt
  simp only [highByte, BitVec.extractLsb'_toNat, Nat.shiftRight_eq_div_pow]
  omega

theorem wordOfBytes_toNat (lo hi : Byte) :
    (wordOfBytes lo hi).toNat = lo.toNat + 256 * hi.toNat := by
  have := lo.isLt
  have := hi.isLt
  simp only [wordOfBytes, BitVec.toNat_ofNat]
  omega

@[simp] theorem lowByte_wordOfBytes (lo hi : Byte) : lowByte (wordOfBytes lo hi) = lo := by
  apply BitVec.eq_of_toNat_eq
  have := lo.isLt
  rw [lowByte_toNat, wordOfBytes_toNat]
  omega

@[simp] theorem highByte_wordOfBytes (lo hi : Byte) : highByte (wordOfBytes lo hi) = hi := by
  apply BitVec.eq_of_toNat_eq
  have := lo.isLt
  rw [highByte_toNat, wordOfBytes_toNat]
  omega

@[simp] theorem wordOfBytes_low_high (w : Word) : wordOfBytes (lowByte w) (highByte w) = w := by
  apply BitVec.eq_of_toNat_eq
  rw [wordOfBytes_toNat, lowByte_toNat, highByte_toNat]
  omega

/-! ### Fields of an instruction word -/

theorem opcodeField_eq (w : Word) : opcodeField w = w.toNat / 4096 := by
  have := w.isLt
  have h : (w.toNat >>> 12) &&& 15 = (w.toNat >>> 12) % 2 ^ 4 := Nat.and_two_pow_sub_one_eq_mod _ 4
  simp only [opcodeField, BitVec.toNat_and, BitVec.toNat_ushiftRight]
  change (w.toNat >>> 12) &&& 15 = _
  rw [h, Nat.shiftRight_eq_div_pow]
  omega

theorem operandField_eq (w : Word) : operandField w = w.toNat % 4096 := by
  have h : w.toNat &&& 4095 = w.toNat % 2 ^ 12 := Nat.and_two_pow_sub_one_eq_mod _ 12
  simp only [operandField, BitVec.toNat_and]
  exact h

theorem operandField_le (w : Word) : operandField w ≤ 4095 := by
  rw [operandField_eq]
  omega

theorem instrOfFields_operand (o n : Nat) : (instrOfFields o n).operand = n := by
  unfold instrOfFields
  split <;> rfl

theorem instrOfFields_opcode {o : Nat} (h : o ≤ 15) (n : Nat) : (instrOfFields o n).opcode = o := by
  interval_cases o <;> rfl

theorem instrOfFields_self (i : Instr) : instrOfFields i.opcode i.operand = i := by
  cases i <;> rfl

/-- An operand that the decoder gives fits the field. -/
theorem decodeWord_wellFormed (w : Word) : (decodeWord w).WellFormed := by
  unfold decodeWord Instr.WellFormed
  rw [instrOfFields_operand]
  exact operandField_le w

theorem Instr.opcode_le (i : Instr) : i.opcode ≤ 15 := by
  cases i <;> simp [Instr.opcode]

/-- The word of a well-formed instruction as a number. -/
theorem encodeWord_toNat {i : Instr} (h : i.WellFormed) :
    (encodeWord i).toNat = i.opcode * 4096 + i.operand := by
  have := i.opcode_le
  unfold Instr.WellFormed at h
  unfold encodeWord
  rw [BitVec.toNat_ofNat]
  omega

/-- The word of the illegal opcode as a number. -/
theorem encodeWord_invalid_toNat {n : Nat} (h : n ≤ 4095) :
    (encodeWord (.invalid n)).toNat = 0xF000 + n := by
  rw [encodeWord_toNat (i := .invalid n) h]
  simp only [Instr.opcode, Instr.operand]

/-- A word given by its two fields decodes to the row of its opcode. -/
theorem decodeWord_ofNat {o n : Nat} (ho : o ≤ 15) (hn : n ≤ 4095) :
    decodeWord (BitVec.ofNat 16 (o * 4096 + n)) = instrOfFields o n := by
  have h : (BitVec.ofNat 16 (o * 4096 + n)).toNat = o * 4096 + n := by
    rw [BitVec.toNat_ofNat]
    omega
  unfold decodeWord
  rw [opcodeField_eq, operandField_eq, h]
  congr 1 <;> omega

namespace Machine

/-! ### The signed reading and narrowing -/

theorem signed16_eq_toInt (w : Word) : signed16 w = w.toInt := by
  have := w.isLt
  unfold signed16
  rw [BitVec.toInt_eq_toNat_cond]
  split <;> split <;> omega

theorem signed16_isSigned (w : Word) : -32768 ≤ signed16 w ∧ signed16 w ≤ 32767 := by
  have := w.isLt
  unfold signed16
  split <;> omega

theorem signed16_emod (w : Word) : signed16 w % 65536 = (w.toNat : Int) := by
  have := w.isLt
  unfold signed16
  split <;> omega

theorem trunc16_toNat (x : Int) : ((trunc16 x).toNat : Int) = x % 65536 := by
  unfold trunc16
  rw [BitVec.toNat_ofNat]
  omega

/-- `trunc16` depends only on its argument modulo 65536. -/
theorem trunc16_congr {x y : Int} (h : x % 65536 = y % 65536) : trunc16 x = trunc16 y := by
  unfold trunc16
  rw [h]

@[simp] theorem trunc16_signed16 (w : Word) : trunc16 (signed16 w) = w := by
  apply BitVec.eq_of_toNat_eq
  have := trunc16_toNat (signed16 w)
  have := signed16_emod w
  omega

/-- The signed reading of a narrowed result is the exact result wrapped to 16 bits. -/
theorem signed16_trunc16 (x : Int) : signed16 (trunc16 x) = x.bmod 65536 := by
  have h := trunc16_toNat x
  have := (trunc16 x).isLt
  unfold signed16
  rw [Int.bmod_def]
  split <;> split <;> omega

theorem immediate_toNat (n : Nat) : (immediate n).toNat = n % 65536 := by
  have := trunc16_toNat (n : Int)
  unfold immediate
  omega

theorem addWords_toNat (a m : Word) : (addWords a m).toNat = (a.toNat + m.toNat) % 65536 := by
  have := trunc16_toNat ((a.toNat : Int) + m.toNat)
  unfold addWords
  omega

theorem subWords_toNat (a m : Word) :
    (subWords a m).toNat = (a.toNat + (65536 - m.toNat)) % 65536 := by
  have := trunc16_toNat ((a.toNat : Int) - m.toNat)
  have := m.isLt
  unfold subWords
  omega

theorem mulWords_toNat (a m : Word) : (mulWords a m).toNat = a.toNat * m.toNat % 65536 := by
  have := trunc16_toNat ((a.toNat : Int) * m.toNat)
  unfold mulWords
  omega

end Machine

end Sys2Proof
end

