-- ==== Sys2Proof/Laws/Cache.lean ====
section
/-! SUPPORT. What each operation of the Cache can do (20_memory.md R48-R56). -/

namespace Sys2Proof.Machine

/-! ### Relations between states -/

theorem SameControl.rfl' (s : State) : SameControl s s := ⟨rfl, rfl, rfl, rfl, rfl⟩

theorem SameControl.trans {s t u : State} (h : SameControl s t) (h' : SameControl t u) :
    SameControl s u :=
  ⟨h'.run.trans h.run, h'.fault.trans h.fault, h'.loadAddress.trans h.loadAddress,
    h'.initialPc.trans h.initialPc, h'.out.trans h.out⟩

theorem SameToProgram.rfl' (s : State) : SameToProgram s s :=
  ⟨rfl, rfl, rfl, rfl, SameControl.rfl' s⟩

theorem SameToProgram.trans {s t u : State} (h : SameToProgram s t) (h' : SameToProgram t u) :
    SameToProgram s u :=
  ⟨h'.pc.trans h.pc, h'.ac.trans h.ac, h'.flag.trans h.flag, h'.mem.trans h.mem,
    h.control.trans h'.control⟩

theorem SameToProgram.symm {s t : State} (h : SameToProgram s t) : SameToProgram t s :=
  ⟨h.pc.symm, h.ac.symm, h.flag.symm, h.mem.symm,
    ⟨h.control.run.symm, h.control.fault.symm, h.control.loadAddress.symm,
      h.control.initialPc.symm, h.control.out.symm⟩⟩

/-! ### Access -/

@[simp] theorem Access.state_done {α : Type} (v : α) (s : State) :
    (Access.done v s).state = s := rfl

@[simp] theorem Access.state_raised {α : Type} (k : FaultKind) (n : Nat) (s : State) :
    (Access.raised k n s : Access α).state = s := rfl

@[simp] theorem Access.done_bind {α β : Type} (v : α) (s : State) (f : α → State → Access β) :
    (Access.done v s).bind f = f v s := rfl

@[simp] theorem Access.raised_bind {α β : Type} (k : FaultKind) (n : Nat) (s : State)
    (f : α → State → Access β) : (Access.raised k n s : Access α).bind f = .raised k n s := rfl

@[simp] theorem Access.done_complete {α : Type} (v : α) (s : State) (f : α → State → State) :
    (Access.done v s).complete f = .next (f v s) := rfl

@[simp] theorem Access.raised_complete {α : Type} (k : FaultKind) (n : Nat) (s : State)
    (f : α → State → State) :
    (Access.raised k n s : Access α).complete f = .next (s.takeFault k n) := rfl

/-! ### The decomposition of an address (20_memory.md R48) -/

theorem blockIndex_val (a : Nat) : (blockIndex a : Nat) = a / 2 % 8 := rfl

theorem blockOffset_val (a : Nat) : (blockOffset a : Nat) = a % 2 := rfl

theorem blockTag_eq (a : Nat) : blockTag a = a / 16 := rfl

theorem blockBase_eq (a : Nat) : blockBase a = a / 2 * 2 := rfl

theorem blockBase_add_offset (a : Nat) : blockBase a + blockOffset a = a := by
  rw [blockBase_eq, blockOffset_val]
  omega

/-- The block a line stands for, from its tag and index. -/
theorem blockBase_of_tag (a : Nat) :
    (blockTag a * Config.numLines + blockIndex a) * Config.blockSize = blockBase a := by
  rw [blockBase_eq, blockTag_eq, blockIndex_val]
  change (a / 16 * 8 + a / 2 % 8) * 2 = _
  omega

/-- An address selects the line that its block number can live in, and no other. -/
theorem blockIndex_of_block {t : Nat} {i : Fin Config.numLines} {j : Fin Config.blockSize} {a : Nat}
    (h : (t * Config.numLines + i) * Config.blockSize + j = a) :
    blockIndex a = i ∧ blockTag a = t ∧ blockOffset a = j := by
  have hi : (i : Nat) < 8 := i.isLt
  have hj : (j : Nat) < 2 := j.isLt
  change (t * 8 + (i : Nat)) * 2 + (j : Nat) = a at h
  refine ⟨Fin.ext ?_, ?_, Fin.ext ?_⟩
  · rw [blockIndex_val]; omega
  · rw [blockTag_eq]; omega
  · rw [blockOffset_val]; omega

theorem blockBase_inRange {a : Nat} (h : inRange a) :
    blockBase a + Config.blockSize ≤ Config.memSize := by
  rw [blockBase_eq]
  change a / 2 * 2 + 2 ≤ 65536
  change a < 65536 at h
  omega

/-! ### Lines -/

@[simp] theorem CacheLine.setByte_valid (l : CacheLine) (o : Fin Config.blockSize) (v : Byte) :
    (l.setByte o v).valid = l.valid := rfl

@[simp] theorem CacheLine.setByte_tag (l : CacheLine) (o : Fin Config.blockSize) (v : Byte) :
    (l.setByte o v).tag = l.tag := rfl

@[simp] theorem CacheLine.setByte_data (l : CacheLine) (o : Fin Config.blockSize) (v : Byte) :
    (l.setByte o v).data = l.data.set o v := rfl

@[simp] theorem State.lineOf_setLine (s : State) (a : Nat) (l : CacheLine) :
    (s.setLine (blockIndex a) l).lineOf a = l := by
  simp [State.lineOf]

@[simp] theorem State.lineOf_fillLine (s : State) (a : Nat)
    (buf : Vector Byte Config.blockSize) :
    (s.fillLine a buf).lineOf a = { valid := true, tag := blockTag a, data := buf } :=
  s.lineOf_setLine a _

theorem State.isHit_iff (s : State) (a : Nat) :
    s.isHit a = true ↔ (s.lineOf a).valid = true ∧ (s.lineOf a).tag = blockTag a := by
  simp [State.isHit]

theorem State.loadBlock_getElem (s : State) (a : Nat) (j : Fin Config.blockSize) :
    (s.loadBlock a)[j] = s.mem.read (blockBase a + j) := by
  simp [State.loadBlock]

@[simp] theorem State.loadBlock_offset (s : State) (a : Nat) :
    (s.loadBlock a)[blockOffset a] = s.mem.read a := by
  rw [State.loadBlock_getElem, blockBase_add_offset]

/-- In a transparent state a hit gives the byte of memory, and its address is in memory. -/
theorem State.Transparent.hit {s : State} (hT : s.Transparent) {a : Nat} (h : s.isHit a = true) :
    inRange a ∧ (s.lineOf a).data[blockOffset a] = s.mem.read a := by
  obtain ⟨hv, ht⟩ := (s.isHit_iff a).1 h
  obtain ⟨hr, hd⟩ := hT (blockIndex a) hv
  have hd := hd (blockOffset a)
  change (s.lineOf a).tag = _ at ht
  change ((s.lineOf a).tag * Config.numLines + _) * _ + _ ≤ _ at hr
  change (s.lineOf a).data[_] = s.mem.read (((s.lineOf a).tag * _ + _) * _ + _) at hd
  rw [ht, blockBase_of_tag] at hr hd
  rw [blockBase_add_offset] at hd
  refine ⟨?_, hd⟩
  rw [blockBase_eq] at hr
  change a < 65536
  change a / 2 * 2 + 2 ≤ 65536 at hr
  omega

/-- An out-of-range address is never a hit (20_memory.md R49). -/
theorem State.Transparent.not_hit {s : State} (hT : s.Transparent) {a : Nat} (h : ¬ inRange a) :
    s.isHit a = false := by
  by_contra hh
  exact h (hT.hit (by simpa using hh)).1

/-- Transparency of each line after one line and perhaps the memory changed. -/
theorem State.transparent_of_line {s t : State} {a : Nat} {l : CacheLine}
    (hlines : t.lines = s.lines.set (blockIndex a) l)
    (hother : ∀ i, i ≠ blockIndex a → s.LineTransparent i → (s.lines[i]).valid = true →
      ∀ j : Fin Config.blockSize,
        t.mem.read (((s.lines[i]).tag * Config.numLines + i) * Config.blockSize + j) =
          s.mem.read (((s.lines[i]).tag * Config.numLines + i) * Config.blockSize + j))
    (hline : l.valid = true →
      (l.tag * Config.numLines + blockIndex a) * Config.blockSize + Config.blockSize
        ≤ Config.memSize ∧
      ∀ j : Fin Config.blockSize, l.data[j] =
        t.mem.read ((l.tag * Config.numLines + blockIndex a) * Config.blockSize + j))
    (hT : s.Transparent) : t.Transparent := by
  intro i
  by_cases hi : i = blockIndex a
  · subst hi
    have : t.lines[blockIndex a] = l := by simp [hlines]
    unfold State.LineTransparent
    rw [this]
    exact hline
  · have : t.lines[i] = s.lines[i] := by
      have hne : ¬ (blockIndex a : Nat) = i := fun h => hi (Fin.ext h.symm)
      simp [hlines, hne]
    unfold State.LineTransparent
    rw [this]
    intro hv
    exact ⟨(hT i hv).1, fun j => ((hT i hv).2 j).trans (hother i hi (hT i) hv j).symm⟩

/-- A fill from memory keeps transparency (20_memory.md R56). -/
theorem State.Transparent.fill {s : State} (hT : s.Transparent) {a : Nat} (ha : inRange a) :
    (s.fillLine a (s.loadBlock a)).Transparent := by
  refine State.transparent_of_line (s := s) (s.fillLine_lines a _) (fun _ _ _ _ _ => rfl) ?_ hT
  intro _
  simp only [blockBase_of_tag]
  exact ⟨blockBase_inRange ha, fun j => s.loadBlock_getElem a j⟩

/-! ### CacheReadByte (20_memory.md R49) -/

/-- Everything a byte read through the Cache can do, in any state. -/
theorem State.cacheReadByte_cases (s : State) (a : Nat) :
    (s.isHit a = true ∧
      s.cacheReadByte a = .done ((s.lineOf a).data[blockOffset a]) s.countHit) ∨
    (s.isHit a = false ∧ ¬ inRange a ∧
      s.cacheReadByte a = .raised .addressOutOfRange a s.countMissOnFault) ∨
    (s.isHit a = false ∧ inRange a ∧
      s.cacheReadByte a = .done (s.mem.read a) (s.countMiss.fillLine a (s.loadBlock a))) := by
  unfold State.cacheReadByte
  by_cases h : s.isHit a = true
  · exact .inl ⟨h, by rw [if_pos h]⟩
  · have h' : s.isHit a = false := by simpa using h
    by_cases ha : inRange a
    · refine .inr (.inr ⟨h', ha, ?_⟩)
      rw [if_neg h, if_neg (not_not_intro ha), State.loadBlock_offset]
    · refine .inr (.inl ⟨h', ha, ?_⟩)
      rw [if_neg h, if_pos ha]

/-- A byte read changes nothing a program can see, and no byte of memory. -/
theorem State.cacheReadByte_frame (s : State) (a : Nat) :
    SameToProgram s (s.cacheReadByte a).state := by
  rcases s.cacheReadByte_cases a with ⟨_, h⟩ | ⟨_, _, h⟩ | ⟨_, _, h⟩ <;> rw [h] <;>
    exact ⟨rfl, rfl, rfl, rfl, rfl, rfl, rfl, rfl, rfl⟩

/-- In a transparent state a byte read in memory gives memory's byte, counts one access and keeps
transparency. -/
theorem State.Transparent.cacheReadByte {s : State} (hT : s.Transparent) {a : Nat}
    (ha : inRange a) :
    ∃ t, s.cacheReadByte a = .done (s.mem.read a) t ∧ SameToProgram s t ∧ t.Transparent ∧
      t.accesses = s.accesses + 1 ∧ t.isHit a = true := by
  have hf := s.cacheReadByte_frame a
  rcases s.cacheReadByte_cases a with ⟨hh, h⟩ | ⟨_, hr, _⟩ | ⟨_, _, h⟩
  · rw [(hT.hit hh).2] at h
    rw [h] at hf
    exact ⟨_, h, hf, hT, Nat.add_right_comm _ _ _, hh⟩
  · exact absurd ha hr
  · rw [h] at hf
    refine ⟨_, h, hf, hT.fill ha, rfl, ?_⟩
    rw [State.isHit_iff]
    simp

/-- In a transparent state a byte read outside memory raises (20_memory.md R49). -/
theorem State.Transparent.cacheReadByte_raises {s : State} (hT : s.Transparent) {a : Nat}
    (ha : ¬ inRange a) :
    s.cacheReadByte a = .raised .addressOutOfRange a s.countMissOnFault := by
  rcases s.cacheReadByte_cases a with ⟨hh, _⟩ | ⟨_, _, h⟩ | ⟨_, hr, _⟩
  · exact absurd (hT.hit hh).1 ha
  · exact h
  · exact absurd hr ha

/-! ### CacheReadWord (20_memory.md R52) -/

/-- A word read changes nothing a program can see, and no byte of memory. -/
theorem State.cacheReadWord_frame (s : State) (a : Nat) :
    SameToProgram s (s.cacheReadWord a).state := by
  unfold State.cacheReadWord
  have h := s.cacheReadByte_frame a
  cases h1 : s.cacheReadByte a with
  | raised k n t => rw [h1] at h; exact h
  | done lo t =>
    rw [h1] at h
    have h' := t.cacheReadByte_frame (a + 1)
    rw [Access.done_bind]
    cases h2 : t.cacheReadByte (a + 1) <;> rw [h2] at h' <;> exact SameToProgram.trans h h'

/-- In a transparent state a word read inside memory gives memory's word. -/
theorem State.Transparent.cacheReadWord {s : State} (hT : s.Transparent) {a : Nat}
    (ha : a + 1 < Config.memSize) :
    ∃ t, s.cacheReadWord a = .done (wordOfBytes (s.mem.read a) (s.mem.read (a + 1))) t ∧
      SameToProgram s t ∧ t.Transparent ∧ t.accesses = s.accesses + 2 := by
  obtain ⟨t, h1, hs, ht, hc, -⟩ := hT.cacheReadByte (a := a) (by unfold inRange; omega)
  obtain ⟨u, h2, hs', hu, hc', -⟩ := ht.cacheReadByte (a := a + 1) ha
  refine ⟨u, ?_, hs.trans hs', hu, by omega⟩
  unfold State.cacheReadWord
  rw [h1, Access.done_bind, h2, Access.done_bind, hs.mem]

/-- A word read above memory raises on its first byte. -/
theorem State.Transparent.cacheReadWord_above {s : State} (hT : s.Transparent) {a : Nat}
    (ha : 65535 < a) :
    s.cacheReadWord a = .raised .addressOutOfRange a s.countMissOnFault := by
  have h : ¬ inRange a := by change ¬ a < 65536; omega
  unfold State.cacheReadWord
  rw [hT.cacheReadByte_raises h, Access.raised_bind]

/-- A word read at the last byte of memory reads that byte and raises on the next address. -/
theorem State.Transparent.cacheReadWord_last {s : State} (hT : s.Transparent) :
    ∃ t, s.cacheReadWord 65535 = .raised .addressOutOfRange 65536 t.countMissOnFault ∧
      SameToProgram s t ∧ t.Transparent ∧ t.accesses = s.accesses + 1 ∧ t.isHit 65535 = true := by
  obtain ⟨t, h, hs, ht, hc, hh⟩ := hT.cacheReadByte (a := 65535) (by decide)
  refine ⟨t, ?_, hs, ht, hc, hh⟩
  unfold State.cacheReadWord
  rw [h, Access.done_bind, ht.cacheReadByte_raises (a := 65535 + 1) (by decide)]
  rfl

/-! ### CacheWriteByte (20_memory.md R50) -/

/-- What a byte write through the Cache does: the write-through, then the line. -/
theorem State.cacheWriteByte_inRange (s : State) {a : Nat} (ha : inRange a) (v : Byte) :
    s.cacheWriteByte a v = .done () ((s.setMem (s.mem.write a v)).cacheUpdateByte a v) := by
  unfold State.cacheWriteByte State.rawWriteByte
  rw [if_pos ha, Access.done_bind]

/-- A byte write outside memory raises and changes nothing. -/
theorem State.cacheWriteByte_raises (s : State) {a : Nat} (ha : ¬ inRange a) (v : Byte) :
    s.cacheWriteByte a v = .raised .addressOutOfRange a s := by
  unfold State.cacheWriteByte State.rawWriteByte
  rw [if_neg ha, Access.raised_bind]

/-- The update of the line is all that the Cache does on a byte write: it counts one access. -/
theorem State.cacheUpdateByte_frame (s : State) (a : Nat) (v : Byte) :
    SameToProgram s (s.cacheUpdateByte a v) ∧
      (s.cacheUpdateByte a v).accesses = s.accesses + 1 := by
  unfold State.cacheUpdateByte
  split
  · exact ⟨⟨rfl, rfl, rfl, rfl, rfl, rfl, rfl, rfl, rfl⟩, Nat.add_right_comm _ _ _⟩
  · exact ⟨⟨rfl, rfl, rfl, rfl, rfl, rfl, rfl, rfl, rfl⟩, rfl⟩

/-- After a byte write the line of the address holds it, with the byte written. -/
theorem State.cacheUpdateByte_line (s : State) (a : Nat) (v : Byte) :
    (s.cacheUpdateByte a v).isHit a = true ∧
      ((s.cacheUpdateByte a v).lineOf a).data[blockOffset a] = v := by
  unfold State.cacheUpdateByte
  split
  · rename_i h
    obtain ⟨hv, ht⟩ := (s.isHit_iff a).1 h
    refine ⟨(State.isHit_iff _ a).2 ?_, ?_⟩ <;> simp [hv, ht]
  · refine ⟨(State.isHit_iff _ a).2 ?_, ?_⟩ <;> simp

/-- Which counter the update of a byte write moves (20_memory.md R50, R51). -/
theorem State.cacheUpdateByte_counts (s : State) (a : Nat) (v : Byte) :
    (s.cacheUpdateByte a v).hits = s.hits + (if s.isHit a then 1 else 0) ∧
      (s.cacheUpdateByte a v).misses = s.misses + (if s.isHit a then 0 else 1) := by
  unfold State.cacheUpdateByte
  split
  · exact ⟨rfl, rfl⟩
  · exact ⟨rfl, rfl⟩

/-- A write-through followed by the update of the line keeps transparency (20_memory.md R56). -/
theorem State.Transparent.write {s : State} (hT : s.Transparent) (hm : s.mem.wf = true) {a : Nat}
    (ha : inRange a) (v : Byte) :
    ((s.setMem (s.mem.write a v)).cacheUpdateByte a v).Transparent := by
  have hother : ∀ i, i ≠ blockIndex a → s.LineTransparent i → (s.lines[i]).valid = true →
      ∀ j : Fin Config.blockSize,
        (s.mem.write a v).read (((s.lines[i]).tag * Config.numLines + i) * Config.blockSize + j) =
          s.mem.read (((s.lines[i]).tag * Config.numLines + i) * Config.blockSize + j) := by
    intro i hi _ _ j
    exact Memory.read_write_ne (fun h => hi (blockIndex_of_block h).1.symm) v _
  have hne : ∀ j : Fin Config.blockSize, j ≠ blockOffset a → blockBase a + j ≠ a := by
    intro j hj h
    rw [← blockBase_of_tag] at h
    exact hj (blockIndex_of_block h).2.2.symm
  have hdata : ∀ d : Vector Byte Config.blockSize,
      (∀ j : Fin Config.blockSize, j ≠ blockOffset a → d[j] = s.mem.read (blockBase a + j)) →
      ∀ j : Fin Config.blockSize,
        (d.set (blockOffset a) v)[j] = (s.mem.write a v).read (blockBase a + j) := by
    intro d hd j
    by_cases hj : j = blockOffset a
    · subst hj
      rw [blockBase_add_offset, Memory.read_write_same hm]
      simp
    · have hj' : ¬ (blockOffset a : Nat) = j := fun h => hj (Fin.ext h.symm)
      rw [Memory.read_write_ne (hne j hj), ← hd j hj]
      simp [hj']
  unfold State.cacheUpdateByte
  split
  · rename_i h
    obtain ⟨hv, ht⟩ := (s.isHit_iff a).1 h
    refine State.transparent_of_line (s := s) (a := a) rfl hother ?_ hT
    intro _
    have hl := (hT (blockIndex a) hv).2
    change ∀ j : Fin _, (s.lineOf a).data[j] =
      s.mem.read (((s.lineOf a).tag * _ + _) * _ + (j : Nat)) at hl
    change ((s.lineOf a).tag * _ + _) * _ + _ ≤ _ ∧ ∀ j : Fin _,
      ((s.lineOf a).data.set (blockOffset a) v)[j] =
        (s.mem.write a v).read (((s.lineOf a).tag * _ + _) * _ + (j : Nat))
    rw [ht, blockBase_of_tag] at hl ⊢
    exact ⟨blockBase_inRange ha, hdata _ fun j _ => hl j⟩
  · refine State.transparent_of_line (s := s) (a := a) rfl hother ?_ hT
    intro _
    change (blockTag a * _ + _) * _ + _ ≤ _ ∧ ∀ j : Fin _,
      (((s.setMem (s.mem.write a v)).loadBlock a).set (blockOffset a) v)[j] =
        (s.mem.write a v).read ((blockTag a * _ + _) * _ + (j : Nat))
    rw [blockBase_of_tag]
    refine ⟨blockBase_inRange ha, hdata _ fun j hj => ?_⟩
    rw [State.loadBlock_getElem]
    exact Memory.read_write_ne (hne j hj) v _

/-- A byte write inside memory, in a state whose memory is canonical and whose Cache is
transparent: memory holds the byte, one access is counted, and both properties stay. -/
theorem State.Transparent.cacheWriteByte {s : State} (hT : s.Transparent) (hm : s.mem.wf = true)
    {a : Nat} (ha : inRange a) (v : Byte) :
    ∃ t, s.cacheWriteByte a v = .done () t ∧
      SameToProgram (s.setMem (s.mem.write a v)) t ∧ t.Transparent ∧ t.mem.wf = true ∧
      t.accesses = s.accesses + 1 ∧ t.isHit a = true ∧ (t.lineOf a).data[blockOffset a] = v := by
  obtain ⟨hf, hc⟩ := (s.setMem (s.mem.write a v)).cacheUpdateByte_frame a v
  obtain ⟨hh, hd⟩ := (s.setMem (s.mem.write a v)).cacheUpdateByte_line a v
  refine ⟨_, s.cacheWriteByte_inRange ha v, hf, hT.write hm ha v, ?_, hc, hh, hd⟩
  rw [hf.mem]
  exact Memory.wf_write hm ha v

/-! ### CacheWriteWord (20_memory.md R53) -/

/-- A word write inside memory: both bytes are written through, two accesses are counted. -/
theorem State.Transparent.cacheWriteWord {s : State} (hT : s.Transparent) (hm : s.mem.wf = true)
    {a : Nat} (ha : a + 1 < Config.memSize) (w : Word) :
    ∃ t, s.cacheWriteWord a w = .done () t ∧
      SameToProgram (s.setMem ((s.mem.write a (lowByte w)).write (a + 1) (highByte w))) t ∧
      t.Transparent ∧ t.mem.wf = true ∧ t.accesses = s.accesses + 2 := by
  obtain ⟨t, h1, hs, ht, htm, hc, -, -⟩ :=
    hT.cacheWriteByte hm (a := a) (by unfold inRange; omega) (lowByte w)
  obtain ⟨u, h2, hs', hu, hum, hc', -, -⟩ := ht.cacheWriteByte htm (a := a + 1) ha (highByte w)
  have hmem : t.mem = s.mem.write a (lowByte w) := hs.mem
  refine ⟨u, ?_, ⟨hs'.pc.trans hs.pc, hs'.ac.trans hs.ac, hs'.flag.trans hs.flag, ?_, ?_⟩, hu, hum,
    by omega⟩
  · unfold State.cacheWriteWord
    rw [h1, Access.done_bind, h2]
  · rw [hs'.mem, State.setMem_mem, State.setMem_mem, hmem]
  · have h := hs.control
    have h' := hs'.control
    exact ⟨h'.run.trans h.run, h'.fault.trans h.fault, h'.loadAddress.trans h.loadAddress,
      h'.initialPc.trans h.initialPc, h'.out.trans h.out⟩

/-- A word write above memory raises on its first byte and changes nothing. -/
theorem State.cacheWriteWord_above (s : State) {a : Nat} (ha : 65535 < a) (w : Word) :
    s.cacheWriteWord a w = .raised .addressOutOfRange a s := by
  have h : ¬ inRange a := by change ¬ a < 65536; omega
  unfold State.cacheWriteWord
  rw [s.cacheWriteByte_raises h, Access.raised_bind]

/-- A word write at the last byte of memory writes that byte and raises on the next address. -/
theorem State.Transparent.cacheWriteWord_last {s : State} (hT : s.Transparent)
    (hm : s.mem.wf = true) (w : Word) :
    ∃ t, s.cacheWriteWord 65535 w = .raised .addressOutOfRange 65536 t ∧
      SameToProgram (s.setMem (s.mem.write 65535 (lowByte w))) t ∧ t.Transparent ∧
      t.mem.wf = true ∧ t.accesses = s.accesses + 1 ∧ t.isHit 65535 = true ∧
      (t.lineOf 65535).data[blockOffset 65535] = lowByte w := by
  obtain ⟨t, h, hs, ht, htm, hc, hh, hd⟩ :=
    hT.cacheWriteByte hm (a := 65535) (by decide) (lowByte w)
  refine ⟨t, ?_, hs, ht, htm, hc, hh, hd⟩
  unfold State.cacheWriteWord
  rw [h, Access.done_bind, t.cacheWriteByte_raises (a := 65535 + 1) (by decide)]

end Sys2Proof.Machine
end

