-- ==== Sys2Proof/Laws/Exec.lean ====
section
/-! SUPPORT. What an instruction, a step and the program load can do, said once. -/

namespace Sys2Proof.Machine

/-! ### The memory operand -/

/-- In a transparent state an instruction with a memory operand inside memory reads memory's word
and goes on. -/
theorem State.Transparent.withMemOperand {s : State} (hT : s.Transparent) {n : Nat}
    (ha : s.absAddr n + 1 < Config.memSize) (write : Word → State → State) :
    ∃ u, s.withMemOperand n write =
        .next (write (wordOfBytes (s.mem.read (s.absAddr n)) (s.mem.read (s.absAddr n + 1)))
          u).advance ∧
      SameToProgram s u ∧ u.Transparent ∧ u.accesses = s.accesses + 2 := by
  obtain ⟨u, h, hs, hu, hc⟩ := hT.cacheReadWord ha
  refine ⟨u, ?_, hs, hu, hc⟩
  unfold State.withMemOperand State.memRead
  rw [h, Access.done_complete]

/-- A memory operand above memory raises with its address. -/
theorem State.Transparent.withMemOperand_above {s : State} (hT : s.Transparent) {n : Nat}
    (ha : 65535 < s.absAddr n) (write : Word → State → State) :
    s.withMemOperand n write =
      .next (s.countMissOnFault.takeFault .addressOutOfRange (s.absAddr n)) := by
  unfold State.withMemOperand State.memRead
  rw [hT.cacheReadWord_above ha, Access.raised_complete]

/-- A memory operand at the last byte of memory raises with the next address. -/
theorem State.Transparent.withMemOperand_last {s : State} (hT : s.Transparent) {n : Nat}
    (ha : s.absAddr n = 65535) (write : Word → State → State) :
    ∃ u, s.withMemOperand n write =
        .next (u.countMissOnFault.takeFault .addressOutOfRange 65536) ∧
      SameToProgram s u ∧ u.Transparent ∧ u.accesses = s.accesses + 1 ∧
      u.isHit 65535 = true := by
  obtain ⟨u, h, hs, hu, hc, hh⟩ := hT.cacheReadWord_last
  refine ⟨u, ?_, hs, hu, hc, hh⟩
  unfold State.withMemOperand State.memRead
  rw [ha, h, Access.raised_complete]

/-- Everything an instruction with a memory operand can do, in any state: it reads, leaving all a
program can see alone, and then goes on or raises. -/
theorem State.withMemOperand_cases (s : State) (n : Nat) (write : Word → State → State) :
    (∃ m u, s.cacheReadWord (s.absAddr n) = .done m u ∧ SameToProgram s u ∧
      s.withMemOperand n write = .next (write m u).advance) ∨
    (∃ k a u, s.cacheReadWord (s.absAddr n) = .raised k a u ∧ SameToProgram s u ∧
      s.withMemOperand n write = .next (u.takeFault k a)) := by
  have hf := s.cacheReadWord_frame (s.absAddr n)
  unfold State.withMemOperand State.memRead
  cases h : s.cacheReadWord (s.absAddr n) with
  | done m u => rw [h] at hf; exact .inl ⟨m, u, rfl, hf, rfl⟩
  | raised k a u => rw [h] at hf; exact .inr ⟨k, a, u, rfl, hf, rfl⟩

/-- Everything a word write through the Cache can do, in any state, to what a program can see:
both bytes, the first byte only, or none of memory. -/
theorem State.cacheWriteWord_cases (s : State) (a : Nat) (w : Word) :
    (a + 1 < Config.memSize ∧ ∃ u, s.cacheWriteWord a w = .done () u ∧
      SameToProgram (s.setMem ((s.mem.write a (lowByte w)).write (a + 1) (highByte w))) u) ∨
    (a = 65535 ∧ ∃ u, s.cacheWriteWord a w = .raised .addressOutOfRange 65536 u ∧
      SameToProgram (s.setMem (s.mem.write a (lowByte w))) u) ∨
    (65535 < a ∧ s.cacheWriteWord a w = .raised .addressOutOfRange a s) := by
  by_cases h1 : 65535 < a
  · exact .inr (.inr ⟨h1, s.cacheWriteWord_above h1 w⟩)
  · have ha : inRange a := by change a < 65536; omega
    have hw := s.cacheWriteByte_inRange ha (lowByte w)
    obtain ⟨hf, -⟩ := (s.setMem (s.mem.write a (lowByte w))).cacheUpdateByte_frame a (lowByte w)
    by_cases h2 : a = 65535
    · refine .inr (.inl ⟨h2, _, ?_, hf⟩)
      subst h2
      unfold State.cacheWriteWord
      rw [hw, Access.done_bind, State.cacheWriteByte_raises _ (a := 65535 + 1) (by decide)]
    · have ha' : inRange (a + 1) := by change a + 1 < 65536; omega
      refine .inl ⟨ha', ?_⟩
      generalize hu : (s.setMem (s.mem.write a (lowByte w))).cacheUpdateByte a (lowByte w) = u at *
      have hw' := u.cacheWriteByte_inRange ha' (highByte w)
      obtain ⟨hf', -⟩ :=
        (u.setMem (u.mem.write (a + 1) (highByte w))).cacheUpdateByte_frame (a + 1) (highByte w)
      refine ⟨_, by unfold State.cacheWriteWord; rw [hw, Access.done_bind, hw'], ?_⟩
      have hm : u.mem = s.mem.write a (lowByte w) := hf.mem
      have hc := hf.control
      have hc' := hf'.control
      refine ⟨hf'.pc.trans hf.pc, hf'.ac.trans hf.ac, hf'.flag.trans hf.flag, ?_,
        hc'.run.trans hc.run, hc'.fault.trans hc.fault, hc'.loadAddress.trans hc.loadAddress,
        hc'.initialPc.trans hc.initialPc, hc'.out.trans hc.out⟩
      rw [hf'.mem, State.setMem_mem, State.setMem_mem, hm]

/-! ### A step -/

/-- A step of a running machine whose fetch succeeds runs the decoded word. -/
theorem step_of_fetch {s u : State} {w : Word} (hr : s.run = .running)
    (hf : s.fetch = .done w u) : step s = exec (decodeWord w) u := by
  unfold step
  rw [hr, hf]

/-- A step of a running machine whose fetch raises takes the fault. -/
theorem step_of_fetch_raised {s u : State} {k : FaultKind} {n : Nat} (hr : s.run = .running)
    (hf : s.fetch = .raised k n u) : step s = .next (u.takeFault k n) := by
  unfold step
  rw [hr, hf]

/-- Everything a step can do when it gives a next state. -/
theorem step_cases {s t : State} (h : step s = .next t) :
    s.run = .running ∧
      ((∃ w u, s.fetch = .done w u ∧ exec (decodeWord w) u = .next t) ∨
        (∃ k n u, s.fetch = .raised k n u ∧ t = u.takeFault k n)) := by
  unfold step at h
  cases hr : s.run with
  | halted => rw [hr] at h; cases h
  | faulted => rw [hr] at h; cases h
  | running =>
    rw [hr] at h
    refine ⟨rfl, ?_⟩
    cases hf : s.fetch with
    | done w u => rw [hf] at h; exact .inl ⟨w, u, rfl, h⟩
    | raised k n u => rw [hf] at h; cases h; exact .inr ⟨k, n, u, rfl, rfl⟩

/-- The fetch changes nothing a program can see. -/
theorem State.fetch_frame (s : State) : SameToProgram s s.fetch.state := s.cacheReadWord_frame s.pc

/-! ### Runs -/

theorem StepsTo.trans {m n : Nat} {s t u : State} (h : StepsTo m s t) (h' : StepsTo n t u) :
    StepsTo (m + n) s u := by
  induction m generalizing s with
  | zero =>
    cases h
    rwa [Nat.zero_add]
  | succ m ih =>
    obtain ⟨v, hv, hm⟩ := h
    rw [Nat.succ_add]
    exact ⟨v, hv, ih hm⟩

/-- A property that every step keeps holds along every run. -/
theorem StepsTo.keeps {P : State → Prop} (hstep : ∀ s t, P s → step s = .next t → P t) {n : Nat}
    {s t : State} (h : StepsTo n s t) (hs : P s) : P t := by
  induction n generalizing s with
  | zero => cases h; exact hs
  | succ n ih =>
    obtain ⟨u, hu, hn⟩ := h
    exact ih hn (hstep s u hs hu)

/-! ### The program load -/

@[simp] theorem State.loadWords_nil (b : Bool) (a : Nat) (s : State) :
    State.loadWords b a [] s = .done () s := rfl

theorem State.loadWords_cons (b : Bool) (a : Nat) (w : Word) (ws : List Word) (s : State) :
    State.loadWords b a (w :: ws) s =
      (if b then s.cacheWriteWord a w else s.rawWriteWord a w).bind fun _ s' =>
        State.loadWords b (a + 2) ws s' := rfl

/-- What a raw word write does (20_memory.md R45). -/
theorem State.rawWriteWord_cases (s : State) (a : Nat) (w : Word) :
    (a + 1 < Config.memSize ∧ s.rawWriteWord a w =
      .done () (s.setMem ((s.mem.write a (lowByte w)).write (a + 1) (highByte w)))) ∨
    (a = 65535 ∧ s.rawWriteWord a w = .raised .addressOutOfRange 65536 s) ∨
    (65535 < a ∧ s.rawWriteWord a w = .raised .addressOutOfRange a s) := by
  unfold State.rawWriteWord
  by_cases h1 : 65535 < a
  · have h : ¬ inRange a := by change ¬ a < 65536; omega
    exact .inr (.inr ⟨h1, if_pos h⟩)
  · have h : inRange a := by change a < 65536; omega
    rw [if_neg (not_not_intro h)]
    by_cases h2 : a = 65535
    · subst h2
      exact .inr (.inl ⟨rfl, if_pos (by decide)⟩)
    · have h' : inRange (a + 1) := by change a + 1 < 65536; omega
      exact .inl ⟨h', if_neg (not_not_intro h')⟩

/-! ### Placing a word from outside -/

/-- A byte placed inside memory is there, and changes nothing else but the line that holds its
address; one placed outside changes nothing. -/
theorem State.placeByte_frame (s : State) (a : Nat) (v : Byte) :
    (inRange a → SameToProgram (s.setMem (s.mem.write a v)) (s.placeByte a v)) ∧
      (¬ inRange a → s.placeByte a v = s) ∧ (s.placeByte a v).accesses = s.accesses := by
  unfold State.placeByte
  by_cases ha : inRange a
  · simp only [ha, not_true_eq_false, if_false]
    split <;> exact ⟨fun _ => ⟨rfl, rfl, rfl, rfl, rfl, rfl, rfl, rfl, rfl⟩, False.elim, rfl⟩
  · simp [ha]

/-- Placing a byte keeps the canonical form of memory. -/
theorem State.placeByte_wf {s : State} (h : s.mem.wf = true) (a : Nat) (v : Byte) :
    (s.placeByte a v).mem.wf = true := by
  by_cases ha : inRange a
  · rw [((s.placeByte_frame a v).1 ha).mem]
    exact Memory.wf_write h ha v
  · rw [(s.placeByte_frame a v).2.1 ha]
    exact h

/-- Placing a word keeps the canonical form of memory. -/
theorem State.placeWord_wf {s : State} (h : s.mem.wf = true) (a : Nat) (w : Word) :
    (s.placeWord a w).mem.wf = true :=
  State.placeByte_wf (State.placeByte_wf h a _) (a + 1) _

end Sys2Proof.Machine
end

