-- ==== Sys2Proof/Laws/PerInstr.lean ====
section
/-! SUPPORT. The family `EncodedFields`: the two fields of an instruction's encoded word are its opcode
and its operand (30_encoding.md R81), one lemma for each constructor. -/

namespace Sys2Proof.Laws.EncodedFields

/-- The word of a well-formed instruction holds its opcode in bits 15..12 and its operand in bits
11..0 (30_encoding.md R81). -/
def Statement (i : Instr) : Prop :=
  i.WellFormed → opcodeField (encodeWord i) = i.opcode ∧ operandField (encodeWord i) = i.operand

/-- The arithmetic behind every lemma of the family. -/
theorem fields_of_encodeWord {i : Instr} (h : i.WellFormed) :
    opcodeField (encodeWord i) = i.opcode ∧ operandField (encodeWord i) = i.operand := by
  have hw := encodeWord_toNat h
  unfold Instr.WellFormed at h
  rw [opcodeField_eq, operandField_eq, hw]
  omega

theorem start (n : Nat) : Statement (.start n) := fields_of_encodeWord

theorem load (n : Nat) : Statement (.load n) := fields_of_encodeWord

theorem loadm (n : Nat) : Statement (.loadm n) := fields_of_encodeWord

theorem store (n : Nat) : Statement (.store n) := fields_of_encodeWord

theorem cmpm (n : Nat) : Statement (.cmpm n) := fields_of_encodeWord

theorem cjmp (n : Nat) : Statement (.cjmp n) := fields_of_encodeWord

theorem jmp (n : Nat) : Statement (.jmp n) := fields_of_encodeWord

theorem add (n : Nat) : Statement (.add n) := fields_of_encodeWord

theorem addm (n : Nat) : Statement (.addm n) := fields_of_encodeWord

theorem sub (n : Nat) : Statement (.sub n) := fields_of_encodeWord

theorem subm (n : Nat) : Statement (.subm n) := fields_of_encodeWord

theorem mul (n : Nat) : Statement (.mul n) := fields_of_encodeWord

theorem mulm (n : Nat) : Statement (.mulm n) := fields_of_encodeWord

theorem disp (n : Nat) : Statement (.disp n) := fields_of_encodeWord

theorem halt (n : Nat) : Statement (.halt n) := fields_of_encodeWord

theorem invalid (n : Nat) : Statement (.invalid n) := fields_of_encodeWord

end Sys2Proof.Laws.EncodedFields
end

