-- ==== Sys2Proof/Tests/Slice0.lean ====
section
/-! SUPPORT. Tests: the checks of WellFormed, the decoding of every row, one step of every
instruction with the values of 95_test_vectors.md, and for every statement with hypotheses a state
and operands that meet them. -/

namespace Sys2Proof.Tests

open Sys2Proof.Machine

/-! ### Helpers -/

/-- A running state with the given PC, AC and LOAD_ADDRESS, and memory given in canonical form. -/
def cpu (pc : Nat) (ac : Word) (la : Nat) (mem : Memory) : State :=
  { State.construct la pc mem with ac := ac }

/-- The next state of an outcome. -/
def nextOf : Host.Outcome State Fault Refusal → Option State
  | .next t => some t
  | _ => none

/-- AC after one instruction that reads the word at address 6 through LOAD_ADDRESS 0. -/
def acAfter (i : Instr) (ac : Word) (mem : Memory) : Option Word :=
  (nextOf (exec i (cpu 0 ac 0 mem))).map (·.ac)

/-- The stop of an outcome. -/
def faultOf : Host.Outcome State Fault Refusal → Option Fault
  | .fault r => some r
  | _ => none

/-! ### WellFormed: each check refuses an ill-formed term -/

theorem test_operand_4095_is_wellFormed : (Instr.load 4095).WellFormed := by decide
theorem test_operand_4096_is_refused : ¬ (Instr.load 4096).WellFormed := by decide
theorem test_jump_operand_4096_is_refused : ¬ (Instr.jmp 4096).WellFormed := by decide
theorem test_ignored_operand_is_refused :
    (SourceLine.statement .halt (.hash 0)).wellFormed = false := by decide
theorem test_missing_immediate_is_refused :
    (SourceLine.statement .load .absent).wellFormed = false := by decide
theorem test_missing_slot_is_refused :
    (SourceLine.statement .jmp .absent).wellFormed = false := by decide
theorem test_slot_for_immediate_is_refused :
    (SourceLine.statement .add (.slot 1)).wellFormed = false := by decide
theorem test_immediate_for_slot_is_refused :
    (SourceLine.statement .addm (.hash 1)).wellFormed = false := by decide
theorem test_immediate_4096_is_refused :
    (SourceLine.statement .sub (.hash 4096)).wellFormed = false := by decide
theorem test_slot_4096_is_refused :
    (SourceLine.statement .store (.slot 4096)).wellFormed = false := by decide
theorem test_dataWord_65536_is_refused : (SourceLine.dataWord 65536).wellFormed = false := by decide

/-! ### Decoding: a word of every row, bit by bit (30_encoding.md R81, R85; 95_test_vectors.md 2.3),
given as the two bytes memory holds, the low byte first -/

theorem test_decode_start : decode [0b11111111, 0b00001111] = .ok (.start 4095, []) := by rfl
theorem test_decode_load : decode [0b11111111, 0b00011111] = .ok (.load 4095, []) := by rfl
theorem test_decode_loadm : decode [0b00000011, 0b00100000] = .ok (.loadm 3, []) := by rfl
theorem test_decode_store : decode [0b00000001, 0b00111000] = .ok (.store 2049, []) := by rfl
theorem test_decode_cmpm : decode [0b00010001, 0b01000000] = .ok (.cmpm 17, []) := by rfl
theorem test_decode_cjmp : decode [0b00000101, 0b01010000] = .ok (.cjmp 5, []) := by rfl
theorem test_decode_jmp : decode [0b11111111, 0b01101111] = .ok (.jmp 4095, []) := by rfl
theorem test_decode_add : decode [0b00010100, 0b01110000] = .ok (.add 20, []) := by rfl
theorem test_decode_addm : decode [0b00000000, 0b10000001] = .ok (.addm 256, []) := by rfl
theorem test_decode_sub : decode [0b00001010, 0b10010000] = .ok (.sub 10, []) := by rfl
theorem test_decode_subm : decode [0b00000010, 0b10100100] = .ok (.subm 1026, []) := by rfl
theorem test_decode_mul : decode [0b00010000, 0b10110000] = .ok (.mul 16, []) := by rfl
theorem test_decode_mulm : decode [0b00010000, 0b11000000] = .ok (.mulm 16, []) := by rfl
theorem test_decode_disp : decode [0b00100011, 0b11010001] = .ok (.disp 0x123, []) := by rfl
theorem test_decode_halt : decode [0b11111111, 0b11101111] = .ok (.halt 4095, []) := by rfl
theorem test_decode_invalid : decode [0b11111111, 0b11111111] = .ok (.invalid 4095, []) := by rfl
theorem test_decode_leaves_the_rest :
    decode [0x05, 0x10, 0x03, 0x70] = .ok (.load 5, [0x03, 0x70]) := by rfl
theorem test_decode_one_byte_is_truncated : decode [0x05] = .error .truncated := by rfl
theorem test_decodeTableWord : decodeTableWord 16 0x2003 = some (.loadm 3) := by decide
theorem test_encode_is_little_endian : encode (.load 0x123) = [0x23, 0x11] := by decide
theorem test_assemble_jmp : assembleLine (.statement .jmp (.slot 4)) = some 0x6004 := by decide
theorem test_assemble_halt : assembleLine (.statement .halt .absent) = some 0xE000 := by decide
theorem test_assemble_dataWord : assembleLine (.dataWord 0xFFFF) = some 0xFFFF := by decide

/-! ### One step of every instruction (95_test_vectors.md 2.4 to 2.7) -/

theorem test_load_zero : acAfter (.load 0) 0x1234 [] = some 0 := by decide
theorem test_load_4095_is_positive : acAfter (.load 4095) 0 [] = some 0x0FFF := by decide
theorem test_loadm : acAfter (.loadm 3) 0 [(6, 0xCD), (7, 0xAB)] = some 0xABCD := by decide
theorem test_loadm_fault : (nextOf (exec (.loadm 1) (cpu 0 7 0xFFFE []))).map (fun t =>
    (t.fault, t.ac, t.pc)) = some (some ⟨.addressOutOfRange, 1, 0x10000⟩, 7, 0) := by decide
theorem test_store : (nextOf (exec (.store 3) (cpu 0 0x8001 0 []))).map (·.mem) =
    some [(6, 0x01), (7, 0x80)] := by decide
theorem test_store_partial : (nextOf (exec (.store 0) (cpu 0 0x01AB 0xFFFF []))).map (fun t =>
    (t.mem, t.fault)) = some ([(0xFFFF, 0xAB)], some ⟨.addressOutOfRange, 1, 65536⟩) := by decide
theorem test_cmpm_signed : (nextOf (exec (.cmpm 3) (cpu 0 1 0 [(6, 0xFF), (7, 0xFF)]))).map
    (·.flag) = some true := by decide
theorem test_cmpm_strict : (nextOf (exec (.cmpm 3) (cpu 0 0x8000 0 [(7, 0x80)]))).map
    (·.flag) = some false := by decide
theorem test_cjmp_taken :
    (nextOf (exec (.cjmp 0) ((cpu 0x0120 0 0x0100 []).setFlag true))).map (·.pc) =
      some 0x0100 := by decide
theorem test_cjmp_not_taken :
    (nextOf (exec (.cjmp 5) (cpu 4 0 0 []))).map (·.pc) = some 6 := by decide
theorem test_jmp : (nextOf (exec (.jmp 4) (cpu 0x0200 0 0x0100 []))).map (·.pc) =
    some 0x0108 := by decide
theorem test_jmp_does_not_wrap :
    (nextOf (exec (.jmp 4095) (cpu 0xF000 0 0xF000 []))).map (·.pc) = some 0x10FFE := by decide
theorem test_add_wraps : acAfter (.add 1) 0xFFFF [] = some 0 := by decide
theorem test_add_4095 : acAfter (.add 4095) 5 [] = some 0x1004 := by decide
theorem test_addm : acAfter (.addm 3) 0x1234 [(6, 0xFF), (7, 0xFF)] = some 0x1233 := by decide
theorem test_addm_wraps : acAfter (.addm 3) 0x8000 [(7, 0x80)] = some 0 := by decide
theorem test_sub_borrows : acAfter (.sub 10) 8 [] = some 0xFFFE := by decide
theorem test_sub_4095 : acAfter (.sub 4095) 0 [] = some 0xF001 := by decide
theorem test_subm : acAfter (.subm 3) 3 [(6, 5)] = some 0xFFFE := by decide
theorem test_subm_of_min : acAfter (.subm 3) 0 [(7, 0x80)] = some 0x8000 := by decide
theorem test_mul : acAfter (.mul 4095) 0x7FFF [] = some 0x7001 := by decide
theorem test_mul_wraps : acAfter (.mul 256) 0x0100 [] = some 0 := by decide
theorem test_mulm : acAfter (.mulm 3) 0x012C [(6, 0x2C), (7, 0x01)] = some 0x5F90 := by decide
theorem test_mulm_signs : acAfter (.mulm 3) 0x8000 [(6, 0xFF), (7, 0xFF)] = some 0x8000 := by decide
theorem test_start : nextOf (exec (.start 0) (cpu 6 3 0 [])) = some (cpu 6 3 0 []).advance := by
  decide
theorem test_disp : (nextOf (exec (.disp 0) (cpu 6 0xFFFF 0 []))).map (fun t => (t.out, t.pc)) =
    some ([-1], 8) := by decide
theorem test_disp_min : (nextOf (exec (.disp 0x7FF) (cpu 6 0x8000 0 []))).map (·.out) =
    some [-32768] := by decide
theorem test_halt : (nextOf (exec (.halt 0) (cpu 8 0 0 []))).map (fun t => (t.run, t.pc)) =
    some (.halted, 8) := by decide
theorem test_invalid : (nextOf (exec (.invalid 0x123) (cpu 4 0 0 []))).map (fun t =>
    (t.run, t.fault, t.pc)) = some (.faulted, some ⟨.invalidOpcode, 2, 0xF123⟩, 4) := by decide
theorem test_jump_out_of_memory_faults_at_the_fetch :
    (nextOf (step (cpu 0x10FFE 0 0xF000 []))).map (·.fault) =
      some (some ⟨.addressOutOfRange, 1, 0x10FFE⟩) := by decide
theorem test_placed_word_is_run : (nextOf (step (State.reset.withFetchWord 16 0x1FFF))).map (fun t =>
    (t.ac, t.pc, t.hits, t.misses)) = some (0x0FFF, 2, 1, 1) := by decide
theorem test_placed_invalid_word : (nextOf (step (State.reset.withFetchWord 16 0xFFFF))).map
    (·.fault) = some (some ⟨.invalidOpcode, 2, 0xFFFF⟩) := by decide
theorem test_write_of_the_unlisted_byte_removes_the_entry :
    Memory.write [(3, 7), (5, 9)] 3 0 = [(5, 9)] := by decide
theorem test_other_tag_misses : ((((cpu 0 0 0 [(16, 7)]).cacheReadByte 0).state.cacheReadByte
    16).state.hits, (((cpu 0 0 0 [(16, 7)]).cacheReadByte 0).state.cacheReadByte 16).state.misses,
    (((cpu 0 0 0 [(16, 7)]).cacheReadByte 0).state.cacheReadByte 16).value) =
      (0, 2, some 7) := by decide
theorem test_load_fault_writes_the_low_byte_through_the_cache :
    ((cpu 0 0 65535 []).loadProgramVia true [0x1205]).mem = [(65535, 0x05)] ∧
      ((cpu 0 0 65535 []).loadProgramVia false [0x1205]).mem = [] := by decide
theorem test_hitRatio : hitRatio 5 9 = 500 / 14 := by norm_num [hitRatio]

/-! ### Witnesses: a state and operands that meet the hypotheses of each statement, a boundary value
for each clause -/

/-- A legal state whose line 0 holds block 0, with two bytes of memory. -/
def warm : State := ((cpu 0 7 0 [(0, 0x05), (1, 0x10)]).cacheReadByte 0).state

theorem warm_legal : warm.Legal := ⟨by decide, by decide, by decide, by decide⟩

theorem warm_holds_line_0 : (warm.lines[(0 : Fin 8)]).valid = true := by decide

/-- A constructed state with a canonical memory is legal. -/
theorem cpu_legal {mem : Memory} (pc : Nat) (ac : Word) (la : Nat) (h : mem.wf = true) :
    (cpu pc ac la mem).Legal :=
  ⟨h, fun i hi => absurd hi (by simp [cpu, State.construct, CacheLine.empty]), rfl, by
    simp [cpu, State.construct]⟩

theorem cpu_transparent (pc : Nat) (ac : Word) (la : Nat) (mem : Memory) :
    (cpu pc ac la mem).Transparent :=
  fun i hi => absurd hi (by simp [cpu, State.construct, CacheLine.empty])

theorem witness_ConstructedStatesAreLegal : Memory.wf [(0, 1), (65535, 2)] = true := by decide

theorem witness_StepKeepsLegal : ∃ t, warm.Legal ∧ step warm = .next t ∧ t.ac = 5 :=
  ⟨_, warm_legal, rfl, by decide⟩

theorem witness_RunStateRules_running : ∃ t, step warm = .next t ∧ t.run = .running :=
  ⟨_, rfl, by decide⟩

theorem witness_RunStateRules_halted :
    ∃ t, step (cpu 0 0 0 [(1, 0xE0)]) = .next t ∧ t.run = .halted := ⟨_, rfl, by decide⟩

theorem witness_RunStateRules_faulted :
    ∃ t, step (cpu 0 0 0 [(1, 0xF0)]) = .next t ∧ t.run = .faulted := ⟨_, rfl, by decide⟩

theorem witness_RunStateRules_stuck :
    faultOf (step (cpu 0 0 0 []).halt) = some .stepAfterHalt ∧
      faultOf (step ((cpu 0 0 0 []).takeFault .invalidOpcode 0xF000)) = some .stepAfterFault := by
  decide

theorem witness_FlagRules_keeps : ∃ t, exec (.load 1) warm = .next t ∧
    ∀ n, Instr.load 1 ≠ .cmpm n := ⟨_, rfl, by simp⟩

theorem witness_FlagRules_cmpm : (cpu 0 1 0 [(65535, 0x80)]).Transparent ∧
    (cpu 0 1 65534 []).absAddr 0 + 1 < Config.memSize := ⟨cpu_transparent _ _ _ _, by decide⟩

theorem witness_FlagRules_otherThanCjmp : ∃ t, (∀ n, Instr.add 1 ≠ .cjmp n) ∧
    exec (.add 1) warm = .next t := ⟨_, by simp, rfl⟩

theorem witness_FlagRules_cjmp : (∃ t, exec (.cjmp 3) (warm.setFlag true) = .next t ∧ t.pc = 6) ∧
    ∃ t, exec (.cjmp 3) (warm.setFlag false) = .next t ∧ t.pc = 2 :=
  ⟨⟨_, rfl, by decide⟩, ⟨_, rfl, by decide⟩⟩

theorem witness_FlagRules_step : ∃ t, step (cpu 0 0x7FFF 0 [(1, 0x40)]) = .next t ∧
    (cpu 0 0x7FFF 0 [(1, 0x40)]).flag = false ∧ t.flag = true := ⟨_, rfl, by decide, by decide⟩

theorem witness_AccumulatorWritersAndReaders :
    (∃ t, exec (.cmpm 0) warm = .next t ∧
      (Instr.cmpm 0).opcode ∉ [0x1, 0x2, 0x7, 0x8, 0x9, 0xA, 0xB, 0xC]) ∧
    ∃ t, exec (.loadm 0) warm = .next t ∧
      (Instr.loadm 0).opcode ∈ [0x0, 0x1, 0x2, 0x5, 0x6, 0xE, 0xF] :=
  ⟨⟨_, rfl, by decide⟩, ⟨_, rfl, by decide⟩⟩

theorem witness_ConfigurationIsConstant : ∃ t, StepsTo 2 warm t ∧ t.pc = 4 :=
  ⟨_, ⟨_, rfl, _, rfl, rfl⟩, by decide⟩

theorem witness_OutputIsNeverRetracted :
    ∃ t, StepsTo 2 (cpu 0 9 0 [(1, 0xD0), (3, 0xF0)]) t ∧ t.out = [9] ∧ t.run = .faulted :=
  ⟨_, ⟨_, rfl, _, rfl, rfl⟩, by decide, by decide⟩

theorem witness_RawByteOperations :
    (65535 ≤ 65535 ∧ warm.mem.wf = true) ∧ 65535 < 65536 := by decide

theorem witness_RawWordWriteIsAllOrNothing :
    warm.mem.wf = true ∧ 65534 + 1 < Config.memSize ∧ 65535 < 65536 := by decide

theorem witness_AddressDecomposition : 65535 ≤ 65535 ∧ 14 / 2 = 15 / 2 ∧
    (blockIndex 14 = blockIndex 15 ∧ blockTag 14 = blockTag 15) ∧ 15 / 2 ≠ 16 / 2 := by decide

theorem witness_CacheAccounting : warm.Transparent ∧
    (∃ t, t = (warm.cacheReadByte 65535).state ∧ 65535 ≤ 65535) ∧
    (∃ t, t = (warm.cacheWriteByte 65535 1).state ∧ 65535 ≤ 65535) ∧ 65535 < 65536 ∧
    ((warm.lines[blockIndex 0]).valid = true ∧ (warm.lines[blockIndex 0]).tag = blockTag 0) ∧
    ((warm.lines[blockIndex 16]).valid = true ∧ (warm.lines[blockIndex 16]).tag ≠ blockTag 16) ∧
    (∃ t, t = (warm.rawWriteWord 65534 1).state) ∧
    ∃ t, exec (.add 1) warm = .next t ∧
      (Instr.add 1).opcode ∉ [0x2, 0x3, 0x4, 0x8, 0xA, 0xC] :=
  ⟨warm_legal.transparent, ⟨_, rfl, by decide⟩, ⟨_, rfl, by decide⟩, by decide, by decide,
    by decide, ⟨_, rfl⟩, ⟨_, rfl, by decide⟩⟩

theorem witness_MissOverwritesItsLine : 16 ≤ 65535 ∧ warm.isHit 16 = false ∧
    warm.mem.wf = true ∧ (warm.lineOf 16).valid = true ∧ warm.isHit 65535 = false := by decide

theorem witness_FirstAccessMissesRepeatHits : 65535 ≤ 65535 ∧
    (warm.lineOf 65535).valid = false ∧ (warm.lineOf 0).valid = true := by decide

theorem witness_CacheIsTransparentToInterleavings : warm.Legal ∧
    valuesThroughCache warm [.read 0, .write 16 9, .read 16, .read 65536, .read 0] =
      [some 5, some 9, none, some 5] := ⟨warm_legal, by decide⟩

theorem witness_StepDoesNotSeeTheCache : ∃ s' , warm.Legal ∧
    (cpu 0 7 0 [(0, 0x05), (1, 0x10)]).Legal ∧
    SameToProgram warm (cpu 0 7 0 [(0, 0x05), (1, 0x10)]) ∧
    warm ≠ cpu 0 7 0 [(0, 0x05), (1, 0x10)] ∧ step warm = .next s' :=
  ⟨_, warm_legal, cpu_legal _ _ _ (by decide), ⟨rfl, rfl, rfl, rfl, rfl, rfl, rfl, rfl, rfl⟩,
    by decide, rfl⟩

theorem witness_StepDoesNotSeeTheCache_stuck : warm.halt.Legal ∧
    (cpu 0 7 0 [(0, 0x05), (1, 0x10)]).halt.Legal ∧
    SameToProgram warm.halt (cpu 0 7 0 [(0, 0x05), (1, 0x10)]).halt ∧
    step warm.halt = .fault .stepAfterHalt :=
  ⟨⟨by decide, by decide, by decide, by decide⟩, ⟨by decide, by decide, by decide, by decide⟩,
    ⟨rfl, rfl, rfl, rfl, rfl, rfl, rfl, rfl, rfl⟩, rfl⟩

theorem witness_RunsDoNotSeeTheCache : ∃ s', warm.Legal ∧
    (cpu 0 7 0 [(0, 0x05), (1, 0x10)]).Legal ∧
    SameToProgram warm (cpu 0 7 0 [(0, 0x05), (1, 0x10)]) ∧ StepsTo 2 warm s' :=
  ⟨_, warm_legal, cpu_legal _ _ _ (by decide), ⟨rfl, rfl, rfl, rfl, rfl, rfl, rfl, rfl, rfl⟩,
    ⟨_, rfl, _, rfl, rfl⟩⟩

theorem witness_WordsAreLittleEndian : warm.Legal ∧ 65534 + 1 < Config.memSize ∧
    65533 + 2 < Config.memSize := ⟨warm_legal, by decide, by decide⟩

theorem witness_DataAccessesPerInstruction :
    (∃ t, warm.run = .running ∧ warm.Legal ∧ exec (.loadm 0) warm = .next t ∧
      t.run ≠ .faulted) ∧
    ∃ t, warm.run = .running ∧ warm.Legal ∧ exec (.jmp 0) warm = .next t ∧ t.run ≠ .faulted :=
  ⟨⟨_, rfl, warm_legal, rfl, by decide⟩, ⟨_, rfl, warm_legal, rfl, by decide⟩⟩

theorem witness_OnlyStoreWritesItsWord :
    (∃ t, exec (.cmpm 3) warm = .next t ∧ ∀ n, Instr.cmpm 3 ≠ .store n) ∧
    (∃ t, exec (.store 3) warm = .next t ∧ 5 ≠ warm.absAddr 3 ∧ 5 ≠ warm.absAddr 3 + 1) ∧
    (Instr.store 4095).WellFormed ∧ (Instr.store 0).WellFormed :=
  ⟨⟨_, rfl, by simp⟩, ⟨_, rfl, by decide, by decide⟩, by decide, by decide⟩

theorem witness_StoreIsSeenByTheNextFetch : (cpu 65532 0x1001 65534 []).Legal ∧
    (cpu 65532 0x1001 65534 []).run = .running ∧
    (cpu 65532 0x1001 65534 []).absAddr 0 = (cpu 65532 0x1001 65534 []).pc + 2 ∧
    (cpu 65532 0x1001 65534 []).pc + 3 < Config.memSize :=
  ⟨cpu_legal _ _ _ (by decide), rfl, by decide, by decide⟩

theorem witness_DecodeOfEncodeIsIdentity :
    (Instr.mulm 4095).WellFormed ∧ (Instr.start 0).WellFormed := by decide

theorem witness_DecodeIsTotalAndExact :
    (Instr.jmp 4095).WellFormed ∧ encode (.jmp 4095) = [0xFF, 0x6F] := by decide

theorem witness_StepRunsTheDecodedInstruction : (cpu 65534 0 0 [(65535, 0xF0)]).run = .running ∧
    (cpu 65534 0 0 [(65535, 0xF0)]).Transparent ∧
    InstrAtPc (cpu 65534 0 0 [(65535, 0xF0)]) (.invalid 0) :=
  ⟨rfl, cpu_transparent _ _ _ _, by decide, rfl⟩

theorem witness_FetchFaults : (cpu 65536 0 0 []).run = .running ∧
    (cpu 65536 0 0 []).Transparent ∧ 65535 < (cpu 65536 0 0 []).pc ∧
    (cpu 65535 0 0 []).run = .running ∧ (cpu 65535 0 0 []).Transparent ∧
    (cpu 65535 0 0 []).pc = 65535 :=
  ⟨rfl, cpu_transparent _ _ _ _, by decide, rfl, cpu_transparent _ _ _ _, rfl⟩

theorem witness_PlacedWordIsRunNext : (cpu 65534 0 0 []).Legal ∧
    (cpu 65534 0 0 []).run = .running ∧ (cpu 65534 0 0 []).pc + 1 < Config.memSize ∧
    4 ≠ (cpu 65534 0 0 []).pc ∧ 4 ≠ (cpu 65534 0 0 []).pc + 1 :=
  ⟨cpu_legal _ _ _ (by decide), rfl, by decide, by decide, by decide⟩

theorem witness_AssembledStatementsDecode :
    (4095 ≤ 4095 ∧ assembleLine (.statement .mul (.hash 4095)) = some 0xBFFF) ∧
    (4095 < 4096 ∧ assembleLine (.statement .mulm (.slot 4096)) = none) ∧
    (65535 ≤ 65535 ∧ assembleLine (.dataWord 65535) = some 0xFFFF) ∧
    (65535 < 65536 ∧ assembleLine (.dataWord 65536) = none) := by decide

/-- The bound on the operand in LoadImmediateResult, ImmediateArithmeticResults, StartResult,
DispResult, HaltResult, InvalidOpcodeResult, and where the others say which words decode. -/
theorem witness_operands_at_both_ends : 0 ≤ 4095 ∧ 4095 ≤ 4095 := by decide

/-- LoadmResult, CmpmResult and MemoryArithmeticResults: the word inside memory, at its end, over it and above it. -/
theorem witness_memory_operands : warm.Transparent ∧ warm.absAddr 32767 + 1 < Config.memSize ∧
    65535 < warm.absAddr 32768 ∧ (cpu 0 0 65535 []).Transparent ∧
    (cpu 0 0 65535 []).absAddr 0 = 65535 ∧ (cpu 0 0 57346 []).absAddr 4095 = 65536 :=
  ⟨warm_legal.transparent, by decide, by decide, cpu_transparent _ _ _ _, by decide, by decide⟩

theorem witness_StoreResult : (cpu 0 0 65534 []).Legal ∧
    (cpu 0 0 65534 []).absAddr 0 + 1 < Config.memSize ∧ 65534 + 1 < Config.memSize ∧
    65535 < (cpu 0 0 65534 []).absAddr 1 ∧
    (cpu 0 0 65535 []).Legal ∧ (cpu 0 0 65535 []).absAddr 0 = 65535 :=
  ⟨cpu_legal _ _ _ (by decide), by decide, by decide, by decide, cpu_legal _ _ _ (by decide),
    by decide⟩

theorem witness_CjmpResult_takenOutOfMemory :
    ∃ t, exec (.cjmp 0) ((cpu 0 0 65535 []).setFlag true) = .next t ∧
      ((cpu 0 0 65535 []).setFlag true).run = .running ∧
      ((cpu 0 0 65535 []).setFlag true).Transparent ∧ 65534 < t.pc ∧ t.pc = 65535 :=
  ⟨_, rfl, rfl, cpu_transparent 0 0 65535 [], by decide, by decide⟩

theorem witness_CjmpResult_notTakenOutOfMemory :
    ∃ t, exec (.cjmp 0) (cpu 65534 0 0 []) = .next t ∧ (cpu 65534 0 0 []).run = .running ∧
      (cpu 65534 0 0 []).Transparent ∧ 65534 < t.pc ∧ t.pc = 65536 :=
  ⟨_, rfl, rfl, cpu_transparent _ _ _ _, by decide, by decide⟩

theorem witness_JmpResult : (cpu 0 0 65535 []).run = .running ∧
    (cpu 0 0 65535 []).Transparent ∧ 65534 < (cpu 0 0 65535 []).loadAddress + 2 * 0 ∧
    65534 < (cpu 0 0 65534 []).loadAddress + 2 * 1 :=
  ⟨rfl, cpu_transparent _ _ _ _, by decide, by decide⟩

theorem witness_InvalidWordEndsTheRun : (cpu 65534 0 0 [(65535, 0xF0)]).Legal ∧
    (cpu 65534 0 0 [(65535, 0xF0)]).run = .running ∧
    (cpu 65534 0 0 [(65535, 0xF0)]).pc + 1 < Config.memSize ∧
    0xF000 ≤ ((cpu 65534 0 0 [(65535, 0xF0)]).wordAt 65534).toNat ∧
    StepsTo 0 warm warm := ⟨cpu_legal _ _ _ (by decide), rfl, by decide, by decide, rfl⟩

theorem witness_FaultsKeepRegistersOutputAndAllBytesButTheLast :
    ∃ t, step (cpu 0 0x12AB 65535 [(1, 0x30)]) = .next t ∧ t.run = .faulted ∧
      t.mem = [(1, 0x30), (65535, 0xAB)] ∧ 65534 ≠ 65535 :=
  ⟨_, rfl, by decide, by decide, by decide⟩

theorem witness_FaultsHaveTheListedCauses_fetch : ∃ t, (cpu 65535 0 0 []).Legal ∧
    step (cpu 65535 0 0 []) = .next t ∧ t.run = .faulted :=
  ⟨_, cpu_legal _ _ _ (by decide), rfl, by decide⟩

theorem witness_FaultsHaveTheListedCauses_operand : ∃ t, (cpu 0 0 65535 [(1, 0x80)]).Legal ∧
    step (cpu 0 0 65535 [(1, 0x80)]) = .next t ∧ t.run = .faulted :=
  ⟨_, cpu_legal _ _ _ (by decide), rfl, by decide⟩

theorem witness_SelfJumpRunsForever_jmp : (cpu 2 0 0 [(2, 0x01), (3, 0x60)]).Legal ∧
    (cpu 2 0 0 [(2, 0x01), (3, 0x60)]).run = .running ∧
    InstrAtPc (cpu 2 0 0 [(2, 0x01), (3, 0x60)]) (.jmp 1) ∧
    (cpu 2 0 0 [(2, 0x01), (3, 0x60)]).absAddr 1 = (cpu 2 0 0 [(2, 0x01), (3, 0x60)]).pc :=
  ⟨cpu_legal _ _ _ (by decide), rfl, ⟨by decide, rfl⟩, by decide⟩

theorem witness_SelfJumpRunsForever_cjmp :
    ((cpu 2 0 0 [(2, 0x01), (3, 0x50)]).setFlag true).Legal ∧
    ((cpu 2 0 0 [(2, 0x01), (3, 0x50)]).setFlag true).run = .running ∧
    (InstrAtPc ((cpu 2 0 0 [(2, 0x01), (3, 0x50)]).setFlag true) (.cjmp 1) ∧
      ((cpu 2 0 0 [(2, 0x01), (3, 0x50)]).setFlag true).flag = true) ∧
    ((cpu 2 0 0 [(2, 0x01), (3, 0x50)]).setFlag true).absAddr 1 = 2 :=
  ⟨⟨by decide, by decide, by decide, by decide⟩, rfl, ⟨⟨by decide, rfl⟩, rfl⟩, by decide⟩

/-- A running state whose word at PC 0 is `JMP @0`, in the Cache, after `h` hits and `m` misses. -/
def looping (h : Nat) : State :=
  { cpu 0 0 0 [(1, 0x60)] with
    lines := (((cpu 0 0 0 [(1, 0x60)]).cacheReadByte 0).state).lines, hits := h }

theorem looping_reads_0 (h : Nat) : (looping h).cacheReadByte 0 = .done 0 (looping (h + 1)) := by
  unfold State.cacheReadByte
  rw [if_pos (show (looping h).isHit 0 = true from rfl),
    show ((looping h).lineOf 0).data[blockOffset 0] = 0 from
      show ((looping 0).lineOf 0).data[blockOffset 0] = 0 by decide]
  rfl

theorem looping_reads_1 (h : Nat) :
    (looping h).cacheReadByte 1 = .done 0x60 (looping (h + 1)) := by
  unfold State.cacheReadByte
  rw [if_pos (show (looping h).isHit 1 = true from rfl),
    show ((looping h).lineOf 1).data[blockOffset 1] = 0x60 from
      show ((looping 0).lineOf 1).data[blockOffset 1] = 0x60 by decide]
  rfl

theorem looping_step (h : Nat) : step (looping h) = .next (looping (h + 2)) := by
  have e : (looping h).fetch = .done 0x6000 (looping (h + 2)) := by
    unfold State.fetch State.cacheReadWord
    rw [show (looping h).pc = 0 from rfl, looping_reads_0]
    simp only [Access.bind, Nat.zero_add, looping_reads_1]
    rfl
  unfold step
  rw [e]
  rfl

theorem looping_steps (n h : Nat) : StepsTo n (looping h) (looping (h + 2 * n)) := by
  induction n generalizing h with
  | zero => rfl
  | succ n ih =>
    refine ⟨looping (h + 2), looping_step h, ?_⟩
    have e : h + 2 * (n + 1) = h + 2 + 2 * n := by omega
    rw [e]
    exact ih (h + 2)

theorem witness_ARunHaltsFaultsOrGoesOnForever_infinite :
    (looping 0).run = .running ∧ RunsForever (looping 0) :=
  ⟨rfl, fun n => ⟨_, looping_steps n 0, rfl⟩⟩

theorem witness_ARunHaltsFaultsOrGoesOnForever_ended :
    ∃ t, (cpu 0 0 0 [(1, 0xE0)]).run = .running ∧ EndsHalted (cpu 0 0 0 [(1, 0xE0)]) t :=
  ⟨_, rfl, ⟨1, _, rfl, rfl⟩, by decide⟩

theorem witness_ARunHaltsFaultsOrGoesOnForever_faulted :
    ∃ t, (cpu 0 0 0 [(1, 0xF0)]).run = .running ∧ EndsFaulted (cpu 0 0 0 [(1, 0xF0)]) t :=
  ⟨_, rfl, ⟨1, _, rfl, rfl⟩, by decide⟩

theorem witness_ProgramLoadWritesTheWords : (cpu 0 0 65532 []).Legal ∧
    (cpu 0 0 65532 []).loadAddress + 2 * [0x1005#16, 0xE000].length ≤ Config.memSize ∧
    65531 < (cpu 0 0 65532 []).loadAddress ∧
    ∀ i : Fin Config.numLines, ((cpu 0 0 65532 []).lines[i]).valid = false :=
  ⟨cpu_legal _ _ _ (by decide), by decide, by decide, by decide⟩

theorem witness_CachedLoadCounts : Memory.wf [(3, 1)] = true ∧ [0xE000#16] ≠ [] ∧
    65534 + 2 * [0xE000#16].length ≤ Config.memSize ∧ 65534 % 2 = 0 ∧
    65533 + 2 * [0xE000#16].length ≤ Config.memSize ∧ 65533 % 2 = 1 := by decide

theorem witness_TooLongProgramFaultsTheLoad : (cpu 0 0 65533 []).Legal ∧
    [0x1005#16, 0xE000] ≠ [] ∧
    Config.memSize < (cpu 0 0 65533 []).loadAddress + 2 * [0x1005#16, 0xE000].length ∧
    (cpu 0 0 65533 []).loadAddress + 2 * 0 + 1 < Config.memSize ∧
    (cpu 0 0 65533 []).loadAddress + 2 * 1 = 65535 ∧
    65532 < (cpu 0 0 65533 []).loadAddress ∧ 65535 < 65536 ∧
    (∀ i : Fin Config.numLines, ((cpu 0 0 65533 []).lines[i]).valid = false) ∧
    Config.memSize < (cpu 0 0 65535 []).loadAddress + 2 * [0xE000#16].length ∧
    Config.memSize < (cpu 0 0 65537 []).loadAddress + 2 * [0xE000#16].length :=
  ⟨cpu_legal _ _ _ (by decide), by decide⟩

theorem witness_PcKeepsTheParityOfTheProgram_step :
    ∃ t, (cpu 1 0 1 [(2, 0x60)]).pc % 2 = (cpu 1 0 1 [(2, 0x60)]).loadAddress % 2 ∧
      step (cpu 1 0 1 [(2, 0x60)]) = .next t := ⟨_, by decide, rfl⟩

theorem witness_PcKeepsTheParityOfTheProgram_run :
    ∃ t, 3 % 2 = 1 % 2 ∧ StepsTo 2 (State.construct 1 3 []) t := ⟨_, by decide, _, rfl, _, rfl, rfl⟩

end Sys2Proof.Tests
end

/-! ### A write that Memory and the Cache do not see -/

namespace Sys2Proof.Machine

/-- The same access with `f` applied to the state it leaves. -/
def Access.mapState {α : Type} (f : State → State) : Access α → Access α
  | .done v s => .done v (f s)
  | .raised k n s => .raised k n (f s)

@[simp] theorem Access.mapState_done {α : Type} (f : State → State) (v : α) (s : State) :
    (Access.done v s).mapState f = .done v (f s) := rfl

@[simp] theorem Access.mapState_raised {α : Type} (f : State → State) (k : FaultKind) (n : Nat)
    (s : State) : (Access.raised k n s : Access α).mapState f = .raised k n (f s) := rfl

/-- When each continuation commutes with `f`, so does the sequence. -/
theorem Access.mapState_bind {α β : Type} {f : State → State} (x : Access α)
    {g : α → State → Access β} (hg : ∀ v s, g v (f s) = (g v s).mapState f) :
    (x.mapState f).bind g = (x.bind g).mapState f := by
  cases x with
  | done v s => exact hg v s
  | raised k n s => rfl

/-- `f` writes nothing that the operations of Memory and of the Cache read or write: it keeps MEM
and LINE, and the order of `f` and of one of their writes does not matter. -/
structure ApartFromMemory (f : State → State) : Prop where
  mem : ∀ s, (f s).mem = s.mem
  lines : ∀ s, (f s).lines = s.lines
  countHit : ∀ s, (f s).countHit = f s.countHit
  countMiss : ∀ s, (f s).countMiss = f s.countMiss
  countMissOnFault : ∀ s, (f s).countMissOnFault = f s.countMissOnFault
  setLine : ∀ s i l, (f s).setLine i l = f (s.setLine i l)
  setMem : ∀ s m, (f s).setMem m = f (s.setMem m)

namespace ApartFromMemory

variable {f : State → State}

theorem lineOf (hf : ApartFromMemory f) (s : State) (a : Nat) : (f s).lineOf a = s.lineOf a := by
  unfold State.lineOf
  rw [hf.lines]

theorem isHit (hf : ApartFromMemory f) (s : State) (a : Nat) : (f s).isHit a = s.isHit a := by
  unfold State.isHit
  rw [hf.lineOf]

theorem loadBlock (hf : ApartFromMemory f) (s : State) (a : Nat) :
    (f s).loadBlock a = s.loadBlock a := by
  unfold State.loadBlock
  rw [hf.mem]

theorem fillLine (hf : ApartFromMemory f) (s : State) (a : Nat)
    (buf : Vector Byte Config.blockSize) : (f s).fillLine a buf = f (s.fillLine a buf) :=
  hf.setLine s _ _

theorem cacheReadByte (hf : ApartFromMemory f) (s : State) (a : Nat) :
    (f s).cacheReadByte a = (s.cacheReadByte a).mapState f := by
  unfold State.cacheReadByte
  rw [hf.isHit, hf.lineOf, hf.loadBlock, hf.countHit, hf.countMissOnFault, hf.countMiss, hf.fillLine]
  split
  · rfl
  · split <;> rfl

theorem cacheUpdateByte (hf : ApartFromMemory f) (s : State) (a : Nat) (v : Byte) :
    (f s).cacheUpdateByte a v = f (s.cacheUpdateByte a v) := by
  unfold State.cacheUpdateByte
  rw [hf.isHit, hf.lineOf, hf.loadBlock, hf.countHit, hf.setLine, hf.countMiss, hf.fillLine]
  split <;> rfl

theorem cacheWriteByte (hf : ApartFromMemory f) (s : State) (a : Nat) (v : Byte) :
    (f s).cacheWriteByte a v = (s.cacheWriteByte a v).mapState f := by
  by_cases ha : inRange a
  · rw [State.cacheWriteByte_inRange _ ha, State.cacheWriteByte_inRange _ ha, hf.mem, hf.setMem,
      hf.cacheUpdateByte, Access.mapState_done]
  · rw [State.cacheWriteByte_raises _ ha, State.cacheWriteByte_raises _ ha, Access.mapState_raised]

theorem cacheReadWord (hf : ApartFromMemory f) (s : State) (a : Nat) :
    (f s).cacheReadWord a = (s.cacheReadWord a).mapState f := by
  unfold State.cacheReadWord
  rw [hf.cacheReadByte]
  refine Access.mapState_bind _ fun lo u => ?_
  rw [hf.cacheReadByte]
  exact Access.mapState_bind _ fun hi v => rfl

theorem cacheWriteWord (hf : ApartFromMemory f) (s : State) (a : Nat) (w : Word) :
    (f s).cacheWriteWord a w = (s.cacheWriteWord a w).mapState f := by
  unfold State.cacheWriteWord
  rw [hf.cacheWriteByte]
  exact Access.mapState_bind _ fun _ u => hf.cacheWriteByte u _ _

end ApartFromMemory

/-! ### Instructions that do not read a component of the state -/

/-- `W s v` writes the value `v` into one component of `s` that Memory, the Cache and absAddr do
not use; raising a fault may write the component too. -/
structure ComponentWrite {α : Type} (W : State → α → State) : Prop where
  apart : ∀ v, ApartFromMemory (W · v)
  loadAddress : ∀ s v, (W s v).loadAddress = s.loadAddress
  takeFault : ∀ s v k n, ∃ v', (W s v).takeFault k n = W (s.takeFault k n) v'

/-- `e` does not read the component that `W` writes: it goes on to the same next state whatever
the component holds, the component itself apart. -/
def Unread {α : Type} (W : State → α → State)
    (e : State → Host.Outcome State Fault Refusal) : Prop :=
  ∀ s v, ∃ t v', e s = .next t ∧ e (W s v) = .next (W t v')

namespace ComponentWrite

variable {α : Type} {W : State → α → State}

/-- An access done beside the component, then register writes that do not read it. -/
theorem complete (hW : ComponentWrite W) {β : Type} (x : Access β) {k : β → State → State}
    (hk : ∀ m u v, ∃ v', k m (W u v) = W (k m u) v') (v : α) :
    ∃ t v', x.complete k = .next t ∧ (x.mapState (W · v)).complete k = .next (W t v') := by
  cases x with
  | done m u =>
    obtain ⟨v', h⟩ := hk m u v
    exact ⟨k m u, v', rfl, congrArg _ h⟩
  | raised kind info u =>
    obtain ⟨v', h⟩ := hW.takeFault u v kind info
    exact ⟨u.takeFault kind info, v', rfl, congrArg _ h⟩

theorem absAddr (hW : ComponentWrite W) (s : State) (v : α) (n : Nat) :
    (W s v).absAddr n = s.absAddr n := by
  unfold State.absAddr
  rw [hW.loadAddress]

theorem withMemOperand (hW : ComponentWrite W) (n : Nat) {write : Word → State → State}
    (hw : ∀ m u v, ∃ v', (write m (W u v)).advance = W (write m u).advance v') :
    Unread W fun s => s.withMemOperand n write := by
  intro s v
  dsimp only [State.withMemOperand, State.memRead]
  rw [hW.absAddr, (hW.apart v).cacheReadWord]
  exact hW.complete _ hw v

theorem execStore (hW : ComponentWrite W) (n : Nat) (hac : ∀ s v, (W s v).ac = s.ac)
    (ha : ∀ u v, (W u v).advance = W u.advance v) : Unread W (execStore n) := by
  intro s v
  unfold Machine.execStore State.memWrite
  rw [hW.absAddr, hac, (hW.apart v).cacheWriteWord]
  exact hW.complete _ (fun _ u v => ⟨v, ha u v⟩) v

end ComponentWrite

/-- `RUN <- r`, as the statement about RUN's readers writes it. -/
def State.setRun (s : State) (r : RunState) : State := { s with run := r }

theorem componentWrite_setRun : ComponentWrite State.setRun where
  apart _ := ⟨fun _ => rfl, fun _ => rfl, fun _ => rfl, fun _ => rfl, fun _ => rfl,
    fun _ _ _ => rfl, fun _ _ => rfl⟩
  loadAddress _ _ := rfl
  takeFault _ _ _ _ := ⟨.faulted, rfl⟩

theorem componentWrite_setFlag : ComponentWrite State.setFlag where
  apart _ := ⟨fun _ => rfl, fun _ => rfl, fun _ => rfl, fun _ => rfl, fun _ => rfl,
    fun _ _ _ => rfl, fun _ _ => rfl⟩
  loadAddress _ _ := rfl
  takeFault _ b _ _ := ⟨b, rfl⟩

/-- No instruction reads RUN (10_state.md R25); HALT and the invalid opcode overwrite it. -/
theorem exec_unread_run (i : Instr) : Unread State.setRun (exec i) := by
  have memOperand := fun n write => componentWrite_setRun.withMemOperand n (write := write)
  cases i with
  | start n | load n | jmp n | add n | sub n | mul n | disp n =>
    exact fun _ r => ⟨_, r, rfl, rfl⟩
  | cjmp n =>
    intro s r
    refine ⟨_, r, rfl, congrArg Host.Outcome.next ?_⟩
    change (if s.flag then _ else _) = _
    split <;> rfl
  | halt n => exact fun _ _ => ⟨_, .halted, rfl, rfl⟩
  | invalid n => exact fun _ _ => ⟨_, .faulted, rfl, rfl⟩
  | loadm n | cmpm n | addm n | subm n | mulm n => exact memOperand n _ fun _ _ r => ⟨r, rfl⟩
  | store n => exact componentWrite_setRun.execStore n (fun _ _ => rfl) fun _ _ => rfl

/-- Only CJMP reads FLAG (10_state.md R24); CMPM overwrites it. -/
theorem exec_unread_flag {i : Instr} (hi : ∀ n, i ≠ .cjmp n) : Unread State.setFlag (exec i) := by
  have memOperand := fun n write => componentWrite_setFlag.withMemOperand n (write := write)
  cases i with
  | start n | load n | jmp n | add n | sub n | mul n | disp n | halt n | invalid n =>
    exact fun _ b => ⟨_, b, rfl, rfl⟩
  | cjmp n => exact absurd rfl (hi n)
  | cmpm n => exact memOperand n _ fun m u _ => ⟨compareGreater u.ac m, rfl⟩
  | loadm n | addm n | subm n | mulm n => exact memOperand n _ fun _ _ b => ⟨b, rfl⟩
  | store n => exact componentWrite_setFlag.execStore n (fun _ _ => rfl) fun _ _ => rfl

/-! ### What an instruction does to RUN and FLAG -/

/-- What an instruction that raises no fault does to RUN and FLAG. -/
structure CompletesFrom (i : Instr) (s t : State) : Prop where
  run : t.run = s.run ∨ (t.run = .halted ∧ ∃ n, i = .halt n)
  flag : t.flag = s.flag ∨ ∃ n, i = .cmpm n

/-- `e` is what the instruction `i` does from `s`: it takes a fault in a state that differs from
`s` in memory and Cache only, or it completes. -/
def FaultsOrCompletes (i : Instr) (s : State) (e : Host.Outcome State Fault Refusal) : Prop :=
  (∃ m u k a, SameToProgram (s.setMem m) u ∧ e = .next (u.takeFault k a)) ∨
  ∃ t, e = .next t ∧ CompletesFrom i s t

theorem withMemOperand_faultsOrCompletes {i : Instr} (s : State) (n : Nat)
    {write : Word → State → State} (hrun : ∀ m u, (write m u).run = u.run)
    (hflag : ∀ m u, (write m u).flag = u.flag ∨ ∃ n, i = .cmpm n) :
    FaultsOrCompletes i s (s.withMemOperand n write) := by
  rcases s.withMemOperand_cases n write with ⟨m, u, -, hs, h⟩ | ⟨k, a, u, -, hs, h⟩
  · exact .inr ⟨_, h, .inl ((hrun m u).trans hs.control.run), (hflag m u).imp_left (·.trans hs.flag)⟩
  · exact .inl ⟨s.mem, u, k, a, hs, h⟩

theorem execStore_faultsOrCompletes (s : State) (n : Nat) :
    FaultsOrCompletes (.store n) s (execStore n s) := by
  unfold execStore State.memWrite
  rcases s.cacheWriteWord_cases (s.absAddr n) s.ac with
    ⟨-, u, h, hs⟩ | ⟨-, u, h, hs⟩ | ⟨-, h⟩ <;> rw [h]
  · exact .inr ⟨_, rfl, .inl hs.control.run, .inl hs.flag⟩
  · exact .inl ⟨_, u, _, _, hs, rfl⟩
  · exact .inl ⟨s.mem, s, _, _, SameToProgram.rfl' s, rfl⟩

/-- Every instruction gives a next state, and only HALT, CMPM and a fault write RUN or FLAG. -/
theorem exec_faultsOrCompletes (i : Instr) (s : State) : FaultsOrCompletes i s (exec i s) := by
  cases i with
  | start n | load n | jmp n | add n | sub n | mul n | disp n =>
    exact .inr ⟨_, rfl, .inl rfl, .inl rfl⟩
  | cjmp n =>
    refine .inr ⟨_, rfl, ?_⟩
    split <;> exact ⟨.inl rfl, .inl rfl⟩
  | halt n => exact .inr ⟨_, rfl, .inr ⟨rfl, n, rfl⟩, .inl rfl⟩
  | invalid n => exact .inl ⟨s.mem, s, _, _, SameToProgram.rfl' s, rfl⟩
  | cmpm n => exact withMemOperand_faultsOrCompletes s n (fun _ _ => rfl) fun _ _ => .inr ⟨n, rfl⟩
  | loadm n | addm n | subm n | mulm n =>
    exact withMemOperand_faultsOrCompletes s n (fun _ _ => rfl) fun _ _ => .inl rfl
  | store n => exact execStore_faultsOrCompletes s n

/-- What a next state of an instruction can be: a fault taken, or the instruction completed. -/
theorem exec_cases {i : Instr} {s t : State} (h : exec i s = .next t) :
    (∃ m u k a, SameToProgram (s.setMem m) u ∧ t = u.takeFault k a) ∨ CompletesFrom i s t := by
  rcases exec_faultsOrCompletes i s with ⟨m, u, k, a, hs, h'⟩ | ⟨t', h', hc⟩ <;>
    rw [h'] at h <;> cases h
  · exact .inl ⟨m, u, k, a, hs, rfl⟩
  · exact .inr hc

theorem exec_next (i : Instr) (s : State) : ∃ t, exec i s = .next t := by
  rcases exec_faultsOrCompletes i s with ⟨_, _, _, _, -, h⟩ | ⟨_, h, -⟩ <;> exact ⟨_, h⟩

/-- Only CMPM writes FLAG (10_state.md R24). -/
theorem exec_flag {i : Instr} {s t : State} (h : exec i s = .next t) :
    t.flag = s.flag ∨ ∃ n, i = .cmpm n := by
  rcases exec_cases h with ⟨m, u, k, a, hs, rfl⟩ | hc
  · exact .inl hs.flag
  · exact hc.flag

/-- RUN after an instruction (10_state.md R25). -/
theorem exec_run {i : Instr} {s t : State} (h : exec i s = .next t) :
    t.run = s.run ∨ (t.run = .halted ∧ ∃ n, i = .halt n) ∨
      (t.run = .faulted ∧ ∃ u k a, t = State.takeFault u k a) := by
  rcases exec_cases h with ⟨m, u, k, a, -, rfl⟩ | hc
  · exact .inr (.inr ⟨rfl, u, k, a, rfl⟩)
  · exact hc.run.imp_right .inl

/-- CMPM's flag is the signed comparison with memory's word (41_compare_branch.md R110). -/
theorem State.Transparent.exec_cmpm_flag {s : State} (hT : s.Transparent) {n : Nat}
    (ha : s.absAddr n + 1 < Config.memSize) :
    ∃ t, exec (.cmpm n) s = .next t ∧
      t.flag = compareGreater s.ac (s.wordAt (s.absAddr n)) := by
  obtain ⟨u, h, hs, -, -⟩ :=
    hT.withMemOperand ha fun m s' => s'.setFlag (compareGreater s'.ac m)
  exact ⟨_, h, congrArg (compareGreater · _) hs.ac⟩

/-! ### What a step does to RUN and FLAG -/

/-- A fetch that is done leaves everything a program can see. -/
theorem State.fetch_done_frame {s u : State} {w : Word} (h : s.fetch = .done w u) :
    SameToProgram s u := by
  have hf := s.fetch_frame
  rwa [h] at hf

/-- A fetch that raises leaves everything a program can see. -/
theorem State.fetch_raised_frame {s u : State} {k : FaultKind} {n : Nat}
    (h : s.fetch = .raised k n u) : SameToProgram s u := by
  have hf := s.fetch_frame
  rwa [h] at hf

theorem step_next_iff (s : State) : (∃ t, step s = .next t) ↔ s.run = .running := by
  constructor
  · rintro ⟨t, h⟩
    exact (step_cases h).1
  · intro hr
    cases hf : s.fetch with
    | done w u => rw [step_of_fetch hr hf]; exact exec_next _ u
    | raised k n u => exact ⟨_, step_of_fetch_raised hr hf⟩

theorem step_run {s t : State} (h : step s = .next t) :
    t.run = .running ∨
    (t.run = .halted ∧ ∃ w u n, s.fetch = .done w u ∧ decodeWord w = .halt n) ∨
    (t.run = .faulted ∧ ∃ u k a, t = State.takeFault u k a) := by
  obtain ⟨hr, ⟨w, u, hf, he⟩ | ⟨k, a, u, -, rfl⟩⟩ := step_cases h
  · rcases exec_run he with h' | ⟨h', n, hn⟩ | h'
    · exact .inl (h'.trans ((State.fetch_done_frame hf).control.run.trans hr))
    · exact .inr (.inl ⟨h', w, u, n, hf, hn⟩)
    · exact .inr (.inr h')
  · exact .inr (.inr ⟨rfl, u, k, a, rfl⟩)

theorem step_flag {s t : State} (h : step s = .next t) :
    t.flag = s.flag ∨ ∃ w u n, s.fetch = .done w u ∧ decodeWord w = .cmpm n := by
  obtain ⟨-, ⟨w, u, hf, he⟩ | ⟨k, a, u, hf, rfl⟩⟩ := step_cases h
  · rcases exec_flag he with h' | ⟨n, hn⟩
    · exact .inl (h'.trans (State.fetch_done_frame hf).flag)
    · exact .inr ⟨w, u, n, hf, hn⟩
  · exact .inl (State.fetch_raised_frame hf).flag

end Sys2Proof.Machine

/-! ### The statements about RUN and FLAG (10_state.md R24, R25) -/

namespace Sys2Proof.Proofs

open Sys2Proof.Machine

/-- Settles O4: the step's and the instructions' inversion lemmas for RUN, and that no instruction
reads it. -/
theorem runStateRules : Obligations.RunStateRules := by
  refine ⟨step_next_iff, fun n s => ⟨s.halt, rfl, rfl⟩, State.takeFault_run,
    fun s t => step_run, fun i s r => ?_, fun la ip m => rfl⟩
  obtain ⟨t, r', ht, hu⟩ := exec_unread_run i s r
  exact ⟨t, t.setRun r', ht, hu, rfl⟩

/-- Settles O5: only CMPM writes FLAG, only CJMP reads it, and the fetch keeps it. -/
theorem flagRules : Obligations.FlagRules := by
  refine ⟨fun i s t h hi => ?_, fun n s hT ha => ?_, fun i s t b hi h => ?_, fun n s t h => ?_,
    fun s t => step_flag, fun la ip m => rfl⟩
  · exact (exec_flag h).resolve_right fun ⟨n, hn⟩ => hi n hn
  · obtain ⟨t, h, hflag⟩ := hT.exec_cmpm_flag ha
    refine ⟨t, h, ?_⟩
    rw [hflag, compareGreater, decide_eq_true_iff]
  · obtain ⟨t', b', ht, hu⟩ := exec_unread_flag hi s b
    cases h.symm.trans ht
    exact ⟨t.setFlag b', hu, rfl⟩
  · cases h
    by_cases hb : s.flag = true <;> simp [hb]

end Sys2Proof.Proofs

/-! ### RawReadByte and RawWriteByte (20_memory.md R42, R43) -/

namespace Sys2Proof.Machine

theorem State.rawReadByte_inRange (s : State) {a : Nat} (ha : inRange a) :
    s.rawReadByte a = .done (s.mem.read a) s := if_pos ha

theorem State.rawReadByte_raises (s : State) {a : Nat} (ha : ¬ inRange a) :
    s.rawReadByte a = .raised .addressOutOfRange a s := if_neg ha

theorem State.rawWriteByte_inRange (s : State) {a : Nat} (ha : inRange a) (v : Byte) :
    s.rawWriteByte a v = .done () (s.setMem (s.mem.write a v)) := if_pos ha

theorem State.rawWriteByte_raises (s : State) {a : Nat} (ha : ¬ inRange a) (v : Byte) :
    s.rawWriteByte a v = .raised .addressOutOfRange a s := if_neg ha

theorem inRange_iff (a : Nat) : inRange a ↔ a ≤ 65535 := Nat.lt_succ_iff

theorem not_inRange_iff (a : Nat) : ¬ inRange a ↔ 65535 < a := by
  rw [inRange_iff, not_le]

/-- Two byte writes to neighbouring addresses, read back anywhere. -/
theorem Memory.read_write_word {m : Memory} (h : m.wf = true) {a : Nat} (ha : inRange a)
    (lo hi : Byte) (b : Nat) :
    ((m.write a lo).write (a + 1) hi).read b =
      if b = a + 1 then hi else if b = a then lo else m.read b := by
  rw [Memory.read_write_of_wfFrom (Memory.wf_write h ha lo), Memory.read_write_of_wfFrom h]

/-! ### The one line of a block (20_memory.md R48) -/

/-- Two addresses share their block exactly when they share line and tag. -/
theorem block_eq_iff (a b : Nat) :
    a / 2 = b / 2 ↔ blockIndex a = blockIndex b ∧ blockTag a = blockTag b := by
  rw [Fin.ext_iff, blockIndex_val, blockIndex_val, blockTag_eq, blockTag_eq]
  omega

/-! ### What a miss does to the lines (20_memory.md R49, R50, R55) -/

theorem State.getElem_setLine_ne (s : State) {i k : Fin Config.numLines} (h : k ≠ i)
    (l : CacheLine) : (s.setLine i l).lines[k] = s.lines[k] := by
  have hne : ¬ (i : Nat) = k := fun hik => h (Fin.ext hik.symm)
  simp [hne]

/-- What a miss leaves of the state `s` from whose memory it fills the line: the block of `a` is in
its line, the other lines and memory are those of `s`, and one miss is counted. -/
structure FilledByMiss (s : State) (a : Nat) (t : State) : Prop where
  hit : t.isHit a = true
  block : ∀ j : Fin Config.blockSize, (t.lineOf a).data[j] = s.mem.read (blockBase a + j)
  otherLines : ∀ i : Fin Config.numLines, i ≠ blockIndex a → t.lines[i] = s.lines[i]
  mem : t.mem = s.mem
  hits : t.hits = s.hits
  misses : t.misses = s.misses + 1

theorem State.filledByMiss_fillLine (s : State) (a : Nat) :
    FilledByMiss s a (s.countMiss.fillLine a (s.loadBlock a)) where
  hit := by rw [State.isHit_iff, State.lineOf_fillLine]; exact ⟨rfl, rfl⟩
  block j := by rw [State.lineOf_fillLine]; exact s.loadBlock_getElem a j
  otherLines _ hi := s.countMiss.getElem_setLine_ne hi _
  mem := rfl
  hits := rfl
  misses := rfl

/-- A read miss fills the line from memory. -/
theorem State.cacheReadByte_miss {s : State} {a : Nat} (ha : inRange a) (h : s.isHit a = false) :
    ∃ t, s.cacheReadByte a = .done (s.mem.read a) t ∧ FilledByMiss s a t := by
  rcases s.cacheReadByte_cases a with ⟨hh, _⟩ | ⟨_, hr, _⟩ | ⟨_, _, hread⟩
  · rw [h] at hh; cases hh
  · exact absurd ha hr
  · exact ⟨_, hread, s.filledByMiss_fillLine a⟩

/-- Setting in a loaded block the byte that memory holds there changes nothing. -/
theorem State.loadBlock_set_read (s : State) (a : Nat) :
    (s.loadBlock a).set (blockOffset a) (s.mem.read a) = s.loadBlock a := by
  rw [← s.loadBlock_offset a]
  exact Vector.set_getElem_self _

/-- A write miss is a fill like that of a read miss, for the block is reloaded after the
write-through and so "already holds v at offset o" (20_memory.md R50). -/
theorem State.cacheUpdateByte_miss {s : State} {a : Nat} {v : Byte} (h : s.isHit a = false)
    (hv : s.mem.read a = v) :
    s.cacheUpdateByte a v = s.countMiss.fillLine a (s.loadBlock a) := by
  subst hv
  unfold State.cacheUpdateByte
  rw [h, if_neg Bool.false_ne_true, s.loadBlock_set_read]

/-- A write miss writes through and fills the line from the memory written. -/
theorem State.cacheWriteByte_miss {s : State} {a : Nat} (ha : inRange a) (h : s.isHit a = false)
    (hm : s.mem.wf = true) (v : Byte) :
    ∃ t, s.cacheWriteByte a v = .done () t ∧ FilledByMiss (s.setMem (s.mem.write a v)) a t := by
  have hfill : (s.setMem (s.mem.write a v)).cacheUpdateByte a v = _ :=
    State.cacheUpdateByte_miss h (Memory.read_write_same hm a v)
  refine ⟨_, s.cacheWriteByte_inRange ha v, ?_⟩
  rw [hfill]
  exact State.filledByMiss_fillLine _ a

/-! ### Reading and fetching a word in a transparent state (20_memory.md R54, R56) -/

theorem State.Transparent.memRead {s : State} (hT : s.Transparent) {a : Nat}
    (ha : a + 1 < Config.memSize) : ∃ u, s.memRead a = .done (s.wordAt a) u := by
  obtain ⟨u, h, -⟩ := hT.cacheReadWord ha
  exact ⟨u, h⟩

theorem State.Transparent.fetch {s : State} (hT : s.Transparent)
    (hpc : s.pc + 1 < Config.memSize) : ∃ u, s.fetch = .done (s.wordAt s.pc) u :=
  hT.memRead hpc

theorem State.wordAt_mod (s : State) (a : Nat) :
    (s.wordAt a).toNat % 256 = (s.mem.read a).toNat := by
  have := (s.mem.read a).isLt
  rw [State.wordAt, wordOfBytes_toNat]
  omega

/-- A word write inside memory: what every byte then reads, and that the Cache stays
transparent. -/
theorem State.Legal.memWrite {s : State} (hs : s.Legal) {a : Nat} (ha : a + 1 < Config.memSize)
    (w : Word) :
    ∃ t, s.memWrite a w = .done () t ∧ t.Transparent ∧ ∀ b, t.mem.read b =
      if b = a + 1 then highByte w else if b = a then lowByte w else s.mem.read b := by
  obtain ⟨t, hw, hsame, hT, -⟩ := hs.transparent.cacheWriteWord hs.memWf ha w
  refine ⟨t, hw, hT, fun b => ?_⟩
  rw [hsame.mem]
  exact Memory.read_write_word hs.memWf (Nat.lt_of_succ_lt ha) _ _ b

end Sys2Proof.Machine

/-! ### The statements about bytes, blocks, misses and byte order (20_memory.md R42, R43, R48, R55,
R58) -/

namespace Sys2Proof.Proofs

open Sys2Proof.Machine

/-- Settles O9: the raw byte operations on the two sides of the end of memory. -/
theorem rawByteOperations : Obligations.RawByteOperations := by
  intro s a v
  rw [← inRange_iff, ← not_inRange_iff]
  refine ⟨s.rawReadByte_inRange, s.rawReadByte_raises, fun ha hm => ?_,
    fun ha => s.rawWriteByte_raises ha v⟩
  exact ⟨_, s.rawWriteByte_inRange ha v, Memory.read_write_same hm a v,
    fun b hb => Memory.read_write_ne hb v _, Memory.wf_write hm ha v, rfl⟩

/-- Settles O11: the fields of an address, its block, and the one line of a block. -/
theorem addressDecomposition : Obligations.AddressDecomposition := by
  refine ⟨fun a => ?_, block_eq_iff⟩
  have hbase := blockBase_add_offset a
  refine ⟨blockOffset_val a, blockIndex_val a, blockTag_eq a, fun ha => ?_, ?_, ?_,
    (blockBase_of_tag a).symm⟩
  · rw [blockTag_eq]
    omega
  · exact Nat.le.intro hbase
  · calc a = blockBase a + blockOffset a := hbase.symm
      _ < blockBase a + Config.blockSize := Nat.add_lt_add_left (blockOffset a).isLt _

/-- Settles O13: a read miss fills its line from memory, a write miss from memory as the
write-through left it. -/
theorem missOverwritesItsLine : Obligations.MissOverwritesItsLine := by
  intro s a v ha hmiss hm
  have hr := (inRange_iff a).2 ha
  constructor
  · obtain ⟨t, hread, hfill⟩ := State.cacheReadByte_miss hr hmiss
    exact ⟨t, hread, hfill.hit, hfill.block, hfill.otherLines, hfill.mem, hfill.hits, hfill.misses⟩
  · obtain ⟨t, hwrite, hfill⟩ := State.cacheWriteByte_miss hr hmiss hm v
    refine ⟨t, hwrite, hfill.hit, fun j => ?_, hfill.otherLines, fun b => ?_, hfill.hits,
      hfill.misses⟩
    · rw [hfill.mem]
      exact hfill.block j
    · rw [hfill.mem]
      exact Memory.read_write_of_wfFrom hm

/-- Settles O18: after a word write memory holds its two bytes, and in the transparent state it
leaves a data read and a fetch give memory's word. -/
theorem wordsAreLittleEndian : Obligations.WordsAreLittleEndian := by
  intro s a w hs ha
  obtain ⟨t, hwrite, hT, hread⟩ := hs.memWrite ha w
  have hlo : t.mem.read a = lowByte w := by rw [hread, if_neg (by omega), if_pos rfl]
  have hhi : t.mem.read (a + 1) = highByte w := by rw [hread, if_pos rfl]
  have hword : t.wordAt a = w := by rw [State.wordAt, hlo, hhi, wordOfBytes_low_high]
  refine ⟨t, hwrite, hlo, hhi, fun b hb hb' => ?_, ?_, ?_, fun ha' => ?_⟩
  · rw [hread, if_neg hb', if_neg hb]
  · rw [← hword]
    exact hT.memRead ha
  · rw [← hword]
    have hT' : (t.setPc a).Transparent := hT
    exact hT'.fetch ha
  · obtain ⟨u, hnext⟩ := hT.memRead (a := a + 1) ha'
    refine ⟨_, u, hnext, ?_⟩
    rw [State.wordAt_mod, hhi, highByte_toNat]

end Sys2Proof.Proofs

/-! ### The two fields of a decoded word (30_encoding.md R81) -/

namespace Sys2Proof

theorem opcodeField_le (w : Word) : opcodeField w ≤ 15 := by
  have := w.isLt
  rw [opcodeField_eq]
  omega

/-- The map never merges two opcode values: 15 is the only one that reaches the illegal row. -/
@[simp] theorem decodeWord_opcode (w : Word) : (decodeWord w).opcode = opcodeField w :=
  instrOfFields_opcode (opcodeField_le w) (operandField w)

@[simp] theorem decodeWord_operand (w : Word) : (decodeWord w).operand = operandField w :=
  instrOfFields_operand (opcodeField w) (operandField w)

theorem opcodeField_eq_extractLsb' (w : Word) : opcodeField w = (w.extractLsb' 12 4).toNat := by
  have := w.isLt
  rw [opcodeField_eq, BitVec.extractLsb'_toNat, Nat.shiftRight_eq_div_pow]
  omega

theorem operandField_eq_extractLsb' (w : Word) : operandField w = (w.extractLsb' 0 12).toNat := by
  rw [operandField_eq, BitVec.extractLsb'_toNat, Nat.shiftRight_zero]

theorem toNat_eq_fields (w : Word) : w.toNat = opcodeField w * 4096 + operandField w := by
  rw [opcodeField_eq, operandField_eq]
  exact (Nat.div_add_mod' w.toNat 4096).symm

end Sys2Proof

/-! ### The statements about the encoding (30_encoding.md R81) -/

namespace Sys2Proof.Proofs

/-- Settles O23: the decoder hands both fields of the word on, and the fields are its bits. -/
theorem decodeReadsTheTwoFields : Obligations.DecodeReadsTheTwoFields := by
  intro w
  rw [decodeWord_opcode, decodeWord_operand]
  exact ⟨opcodeField_eq_extractLsb' w, operandField_eq_extractLsb' w, toNat_eq_fields w⟩

end Sys2Proof.Proofs

/-! ### Updates that keep the control state or all that a program can see -/

namespace Sys2Proof.Machine

theorem SameControl.advance {s u : State} (h : SameControl s u) : SameControl s u.advance :=
  ⟨h.run, h.fault, h.loadAddress, h.initialPc, h.out⟩

theorem SameControl.setAc {s u : State} (h : SameControl s u) (v : Word) :
    SameControl s (u.setAc v) :=
  ⟨h.run, h.fault, h.loadAddress, h.initialPc, h.out⟩

theorem SameControl.setFlag {s u : State} (h : SameControl s u) (b : Bool) :
    SameControl s (u.setFlag b) :=
  ⟨h.run, h.fault, h.loadAddress, h.initialPc, h.out⟩

theorem SameControl.of_setMem {s u : State} {m : Memory} (h : SameControl (s.setMem m) u) :
    SameControl s u :=
  ⟨h.run, h.fault, h.loadAddress, h.initialPc, h.out⟩

theorem SameToProgram.countMissOnFault {s u : State} (h : SameToProgram s u) :
    SameToProgram s u.countMissOnFault :=
  h.trans ⟨rfl, rfl, rfl, rfl, rfl, rfl, rfl, rfl, rfl⟩

/-! ### Immediate operands (30_encoding.md R82) -/

/-- An operand that fits its field becomes a word of the same value. -/
theorem immediate_toNat_of_le {n : Nat} (hn : n ≤ 4095) : (immediate n).toNat = n := by
  rw [immediate_toNat]
  exact Nat.mod_eq_of_lt (by omega)

/-- An immediate is never negative, for its bits 15..12 are 0 (40_load_store.md R100). -/
theorem signed16_immediate {n : Nat} (hn : n ≤ 4095) : signed16 (immediate n) = n := by
  have hlt : (immediate n).toNat < 32768 := by
    rw [immediate_toNat_of_le hn]
    omega
  calc signed16 (immediate n) = ((immediate n).toNat : Int) := if_pos hlt
    _ = n := by rw [immediate_toNat_of_le hn]

theorem onlyAcWritten_setAc_advance (s : State) (v : Word) :
    OnlyAcWritten s (s.setAc v).advance where
  pc := rfl
  flag := rfl
  memory _ := rfl
  cache := ⟨rfl, rfl, rfl⟩
  control := ((SameControl.rfl' s).setAc v).advance

/-! ### What a raise leaves (60_exceptions.md R146) -/

/-- A fault taken in a state that differs from `s` in memory and Cache only is raised from `s`. -/
theorem SameToProgram.raises {s u : State} {m : Memory} (h : SameToProgram (s.setMem m) u)
    (k : FaultKind) (a : Nat) : Raises k a s (u.takeFault k a) where
  run := rfl
  fault := ⟨_, rfl, rfl, rfl⟩
  pc := h.pc
  ac := h.ac
  flag := h.flag
  out := h.control.out
  loadAddress := h.control.loadAddress
  initialPc := h.control.initialPc

/-! ### Instructions with a memory operand (40_load_store.md R101) -/

/-- A memory operand inside memory: the word read is memory's, and an instruction that then writes
AC and FLAG only changes nothing else but PC and the hidden state. -/
theorem State.Transparent.withMemOperand_advanced {s : State} (hT : s.Transparent) {n : Nat}
    (ha : s.absAddr n + 1 < Config.memSize) {write : Word → State → State}
    (hw : ∀ m u, ∃ v b, write m u = (u.setAc v).setFlag b) :
    ∃ u, s.withMemOperand n write = .next (write (s.wordAt (s.absAddr n)) u).advance ∧
      SameToProgram s u ∧ AdvancedAfterRead s (write (s.wordAt (s.absAddr n)) u).advance := by
  obtain ⟨u, hexec, hs, hu, hc⟩ := hT.withMemOperand ha write
  obtain ⟨v, b, hv⟩ := hw (s.wordAt (s.absAddr n)) u
  refine ⟨u, hexec, hs, ?_⟩
  rw [hv]
  exact
    { pc := congrArg (· + 2) hs.pc
      memory := fun a => congrArg (Memory.read · a) hs.mem
      control := ((hs.control.setAc v).setFlag b).advance
      transparent := hu
      counted := hc }

/-- The two faults of a memory operand are the same whatever the instruction would have written. -/
theorem faultsAsMemoryOperand_of_withMemOperand {i : Instr} {n : Nat}
    {write : Word → State → State} (hi : ∀ s, exec i s = s.withMemOperand n write) :
    FaultsAsMemoryOperand i n := by
  intro s hT
  rw [hi s]
  constructor
  · intro ha
    exact ⟨_, hT.withMemOperand_above ha write,
      SameToProgram.raises (m := s.mem) (SameToProgram.rfl' s).countMissOnFault _ _,
      fun _ => rfl, rfl, rfl, rfl⟩
  · intro ha
    obtain ⟨u, hexec, hs, hu, hc, hhit⟩ := hT.withMemOperand_last ha write
    have hcounted : u.hits + (u.misses + missesOnFault) = s.accesses + 1 + missesOnFault := by
      rw [← hc, Nat.add_assoc]
    exact ⟨_, hexec, SameToProgram.raises (m := s.mem) hs.countMissOnFault _ _,
      fun a => congrArg (Memory.read · a) hs.mem, hu, hhit, hcounted⟩

/-! ### STORE (40_load_store.md R102) -/

theorem exec_store_eq (n : Nat) (s : State) :
    exec (.store n) s = (s.cacheWriteWord (s.absAddr n) s.ac).complete fun _ u => u.advance := rfl

/-- A STORE inside memory writes both bytes of AC, counts two accesses and goes on. -/
theorem State.Legal.exec_store {s : State} (hs : s.Legal) {n : Nat}
    (ha : s.absAddr n + 1 < Config.memSize) :
    ∃ u, exec (.store n) s = .next u.advance ∧
      SameToProgram (s.setMem ((s.mem.write (s.absAddr n) (lowByte s.ac)).write
        (s.absAddr n + 1) (highByte s.ac))) u ∧
      u.Transparent ∧ u.accesses = s.accesses + 2 := by
  obtain ⟨u, hwrite, hsame, hu, -, hc⟩ := hs.transparent.cacheWriteWord hs.memWf ha s.ac
  exact ⟨u, by rw [exec_store_eq, hwrite, Access.done_complete], hsame, hu, hc⟩

/-- A STORE above memory raises with its address, before any byte is written. -/
theorem exec_store_above (s : State) {n : Nat} (ha : 65535 < s.absAddr n) :
    exec (.store n) s = .next (s.takeFault .addressOutOfRange (s.absAddr n)) := by
  rw [exec_store_eq, s.cacheWriteWord_above ha, Access.raised_complete]

/-- A STORE at the last byte of memory writes AC's low byte there, in memory and in its line, and
raises with the next address. -/
theorem State.Legal.exec_store_last {s : State} (hs : s.Legal) {n : Nat}
    (ha : s.absAddr n = 65535) :
    ∃ u, exec (.store n) s = .next (u.takeFault .addressOutOfRange 65536) ∧
      SameToProgram (s.setMem (s.mem.write 65535 (lowByte s.ac))) u ∧
      u.Transparent ∧ u.accesses = s.accesses + 1 ∧ u.isHit 65535 = true ∧
      (u.lineOf 65535).data[blockOffset 65535] = lowByte s.ac := by
  obtain ⟨u, hwrite, hsame, hu, -, hc, hhit, hbyte⟩ :=
    hs.transparent.cacheWriteWord_last hs.memWf s.ac
  exact ⟨u, by rw [exec_store_eq, ha, hwrite, Access.raised_complete], hsame, hu, hc, hhit, hbyte⟩

/-- With a transparent Cache the fetch at any PC inside memory gives memory's word. -/
theorem State.Transparent.fetch_setPc {s : State} (hT : s.Transparent) {p : Nat}
    (hp : p + 1 < Config.memSize) : ∃ u, (s.setPc p).fetch = .done (s.wordAt p) u := by
  have hT' : (s.setPc p).Transparent := hT
  exact hT'.fetch hp

end Sys2Proof.Machine

/-! ### The statements about LOAD, LOADM and STORE (40_load_store.md R100, R101, R102) -/

namespace Sys2Proof.Proofs

open Sys2Proof.Machine

/-- Settles O31: LOAD writes the zero-extended immediate to AC. -/
theorem loadImmediateResult : Obligations.LoadImmediateResult := by
  intro n s hn
  exact ⟨decodeWord_ofNat (o := 1) (by decide) hn, _, rfl, immediate_toNat_of_le hn,
    signed16_immediate hn, onlyAcWritten_setAc_advance s _⟩

/-- Settles O32: LOADM is an instruction with a memory operand that writes the word read to AC. -/
theorem loadmResult : Obligations.LoadmResult := by
  intro n
  refine ⟨decodeWord_ofNat (o := 2) (by decide), fun s hT ha => ?_,
    faultsAsMemoryOperand_of_withMemOperand fun _ => rfl⟩
  obtain ⟨u, hexec, hs, hadvanced⟩ :=
    hT.withMemOperand_advanced ha (write := fun m u => u.setAc m) fun m u => ⟨m, u.flag, rfl⟩
  exact ⟨_, hexec, wordOfBytes_toNat _ _, hs.flag, hadvanced⟩

/-- Settles O33: STORE inside memory, above it, and at its last byte. -/
theorem storeResult : Obligations.StoreResult := by
  intro n
  refine ⟨decodeWord_ofNat (o := 3) (by decide), fun s hs => ⟨fun ha => ?_, fun ha => ?_,
    fun ha => ?_⟩⟩
  · obtain ⟨u, hexec, hsame, hu, hc⟩ := hs.exec_store ha
    have hread : ∀ b, u.mem.read b =
        if b = s.absAddr n then lowByte s.ac
        else if b = s.absAddr n + 1 then highByte s.ac else s.mem.read b := by
      intro b
      rw [hsame.mem]
      exact (Memory.read_write_word hs.memWf (Nat.lt_of_succ_lt ha) _ _ b).trans
        (ite_ite_comm _ _ _ _ fun _ => by omega)
    have hcontrol : SameControl s u.advance := hsame.control.of_setMem.advance
    have hT : u.advance.Transparent := hu
    exact ⟨_, hexec, hread, congrArg (· + 2) hsame.pc, hsame.ac, hsame.flag,
      hcontrol, hT, hc, fun p hp => hT.fetch_setPc hp⟩
  · exact ⟨_, exec_store_above s ha,
      SameToProgram.raises (m := s.mem) (SameToProgram.rfl' s) _ _,
      fun _ => rfl, rfl, rfl, rfl⟩
  · obtain ⟨u, hexec, hsame, hu, hc, hhit, hbyte⟩ := hs.exec_store_last ha
    have hread : ∀ b, u.mem.read b = if b = 65535 then lowByte s.ac else s.mem.read b := by
      intro b
      rw [hsame.mem]
      exact Memory.read_write_of_wfFrom hs.memWf
    exact ⟨_, hexec, hsame.raises _ _, hread, hhit, hbyte, hu, hc⟩

end Sys2Proof.Proofs

/-! ### CMPM's comparison (41_compare_branch.md R110) -/

namespace Sys2Proof.Machine

/-- The model's comparison is the strict order of the two's complement readings. -/
theorem compareGreater_eq_toInt (ac m : Word) :
    compareGreater ac m = decide (ac.toInt > m.toInt) := by
  rw [compareGreater, signed16_eq_toInt, signed16_eq_toInt]

end Sys2Proof.Machine

/-! ### The statement about CMPM (41_compare_branch.md R110) -/

namespace Sys2Proof.Proofs

open Sys2Proof.Machine

/-- Settles O34: CMPM is an instruction with a memory operand that writes the comparison of AC,
which the read keeps, with the word read to FLAG. -/
theorem cmpmResult : Obligations.CmpmResult := by
  intro n
  refine ⟨decodeWord_ofNat (o := 4) (by decide), fun s hT ha => ?_,
    faultsAsMemoryOperand_of_withMemOperand fun _ => rfl⟩
  obtain ⟨u, hexec, hs, hadvanced⟩ :=
    hT.withMemOperand_advanced ha (write := fun m u => u.setFlag (compareGreater u.ac m))
      fun m u => ⟨u.ac, compareGreater u.ac m, rfl⟩
  have hflag : compareGreater u.ac (s.wordAt (s.absAddr n)) =
      decide (s.ac.toInt > (s.wordAt (s.absAddr n)).toInt) := by
    rw [hs.ac, compareGreater_eq_toInt]
  exact ⟨_, hexec, hflag, hs.ac, hadvanced⟩

end Sys2Proof.Proofs

/-! ### Exact results modulo 65536 (42_arithmetic.md R120) -/

namespace Sys2Proof.Machine

/-- `f` on words is the exact integer operation `op` on their unsigned readings, modulo 65536. -/
def ExactModulo (f : Word → Word → Word) (op : Int → Int → Int) : Prop :=
  ∀ a m, ((f a m).toNat : Int) = op a.toNat m.toNat % 65536

theorem addWords_exactModulo : ExactModulo addWords (· + ·) := fun _ _ => trunc16_toNat _

theorem subWords_exactModulo : ExactModulo subWords (· - ·) := fun _ _ => trunc16_toNat _

theorem mulWords_exactModulo : ExactModulo mulWords (· * ·) := fun _ _ => trunc16_toNat _

section

variable {f : Word → Word → Word} {op : Int → Int → Int}

/-- An immediate enters the exact result as the unsigned operand itself. -/
theorem ExactModulo.immediate_toNat (hf : ExactModulo f op) (a : Word) {n : Nat} (hn : n ≤ 4095) :
    ((f a (immediate n)).toNat : Int) = op a.toNat n % 65536 := by
  rw [hf, immediate_toNat_of_le hn]

/-- An instruction that combines AC with the word read and writes the result to AC. The read keeps
AC, so the exact result is that of the AC before it. -/
theorem ExactModulo.withMemOperand (hf : ExactModulo f op) {s : State} (hT : s.Transparent)
    {n : Nat} (ha : s.absAddr n + 1 < Config.memSize) :
    ∃ t, s.withMemOperand n (fun m u => u.setAc (f u.ac m)) = .next t ∧
      (t.ac.toNat : Int) = op s.ac.toNat (s.wordAt (s.absAddr n)).toNat % 65536 ∧
      t.flag = s.flag ∧ AdvancedAfterRead s t := by
  obtain ⟨u, hexec, hs, hadvanced⟩ :=
    hT.withMemOperand_advanced ha (write := fun m u => u.setAc (f u.ac m))
      fun m u => ⟨f u.ac m, u.flag, rfl⟩
  have hac : ((f u.ac (s.wordAt (s.absAddr n))).toNat : Int) =
      op s.ac.toNat (s.wordAt (s.absAddr n)).toNat % 65536 := by
    rw [hs.ac, hf]
  exact ⟨_, hexec, hac, hs.flag, hadvanced⟩

end

end Sys2Proof.Machine

/-! ### The statements about arithmetic (42_arithmetic.md R121-R126) -/

namespace Sys2Proof.Proofs

open Sys2Proof.Machine

/-- Settles O38: ADDM, SUBM and MULM are instructions with a memory operand that write the exact
result modulo 65536 to AC. -/
theorem memoryArithmeticResults : Obligations.MemoryArithmeticResults := by
  intro n
  refine ⟨fun hn => ⟨?_, ?_, ?_⟩, fun s hT ha => ⟨?_, ?_, ?_⟩, ?_, ?_, ?_⟩
  · exact decodeWord_ofNat (o := 8) (by decide) hn
  · exact decodeWord_ofNat (o := 10) (by decide) hn
  · exact decodeWord_ofNat (o := 12) (by decide) hn
  · exact addWords_exactModulo.withMemOperand hT ha
  · exact subWords_exactModulo.withMemOperand hT ha
  · exact mulWords_exactModulo.withMemOperand hT ha
  all_goals exact faultsAsMemoryOperand_of_withMemOperand fun _ => rfl

/-- Settles O37: ADD, SUB and MUL write the exact result modulo 65536 to AC and nothing else but
PC. -/
theorem immediateArithmeticResults : Obligations.ImmediateArithmeticResults := by
  intro n s hn
  refine ⟨⟨?_, _, rfl, addWords_exactModulo.immediate_toNat s.ac hn, ?_⟩,
    ⟨?_, _, rfl, subWords_exactModulo.immediate_toNat s.ac hn, ?_⟩,
    ⟨?_, _, rfl, mulWords_exactModulo.immediate_toNat s.ac hn, ?_⟩⟩
  · exact decodeWord_ofNat (o := 7) (by decide) hn
  · exact onlyAcWritten_setAc_advance s _
  · exact decodeWord_ofNat (o := 9) (by decide) hn
  · exact onlyAcWritten_setAc_advance s _
  · exact decodeWord_ofNat (o := 11) (by decide) hn
  · exact onlyAcWritten_setAc_advance s _

end Sys2Proof.Proofs

/-! ### Going on to the next instruction alone (43_system.md R130) -/

namespace Sys2Proof.Machine

/-- START has no effect but the PC's, whatever its operand. -/
theorem exec_start_eq (n : Nat) (s : State) : exec (.start n) s = .next s.advance := rfl

theorem onlyAcWritten_advance (s : State) : OnlyAcWritten s s.advance where
  pc := s.advance_pc
  flag := s.advance_flag
  memory a := congrArg (Memory.read · a) s.advance_mem
  cache := ⟨s.advance_lines, s.advance_hits, s.advance_misses⟩
  control := (SameControl.rfl' s).advance

end Sys2Proof.Machine

/-! ### The statement about START (43_system.md R130) -/

namespace Sys2Proof.Proofs

open Sys2Proof.Machine

/-- Settles O40: opcode 0 decodes to START, which only advances PC and so keeps AC too. -/
theorem startResult : Obligations.StartResult := by
  intro n s hn
  have hdecode : decodeWord (BitVec.ofNat 16 (0x0000 + n)) = .start n :=
    decodeWord_ofNat (o := 0) (by decide) hn
  exact ⟨hdecode, s.advance, exec_start_eq n s, s.advance_ac, onlyAcWritten_advance s⟩

end Sys2Proof.Proofs

/-! ### Word accesses from a legal state (20_memory.md R52, R53) -/

namespace Sys2Proof.Machine

/-- A word at `a` reaches out of memory exactly when `a` is the last address or above. -/
theorem not_succ_lt_memSize_iff (a : Nat) : ¬ a + 1 < Config.memSize ↔ 65534 < a := by
  change ¬ a + 1 < 65536 ↔ _
  omega

/-- A legal state keeps its legality under a change of memory alone, so long as the memory is
canonical and the Cache goes with it. -/
theorem State.Legal.of_setMem {s u : State} {m : Memory} (hs : s.Legal)
    (h : SameToProgram (s.setMem m) u) (hm : u.mem.wf = true) (hu : u.Transparent) : u.Legal where
  memWf := hm
  transparent := hu
  faultLegal := by
    unfold State.faultLegal
    rw [h.control.run, h.control.fault]
    exact hs.faultLegal
  outSigned := by rw [h.control.out]; exact hs.outSigned

/-- A state that a program sees as a legal one is legal too when its Cache is transparent. -/
theorem State.Legal.of_sameToProgram {s u : State} (hs : s.Legal) (h : SameToProgram s u)
    (hu : u.Transparent) : u.Legal :=
  hs.of_setMem (m := s.mem) h (by rw [h.mem]; exact hs.memWf) hu

/-- Everything a word read can do in a transparent state: it gives memory's word, or it raises at
the first of its two addresses that is not in memory. -/
theorem State.Transparent.cacheReadWord_cases {s : State} (hT : s.Transparent) (a : Nat) :
    ∃ u, SameToProgram s u ∧ u.Transparent ∧
      ((a + 1 < Config.memSize ∧ s.cacheReadWord a = .done (s.wordAt a) u ∧
          u.accesses = s.accesses + 2) ∨
        (¬ a + 1 < Config.memSize ∧
          s.cacheReadWord a = .raised .addressOutOfRange (max 65536 a) u)) := by
  rcases Nat.lt_trichotomy a 65535 with ha | rfl | ha
  · obtain ⟨u, hread, hs, hu, hc⟩ := hT.cacheReadWord (Nat.succ_lt_succ ha)
    exact ⟨u, hs, hu, .inl ⟨Nat.succ_lt_succ ha, hread, hc⟩⟩
  · obtain ⟨u, hread, hs, hu, -, -⟩ := hT.cacheReadWord_last
    exact ⟨_, hs.countMissOnFault, hu, .inr ⟨by decide, hread⟩⟩
  · have hout := (not_succ_lt_memSize_iff a).2 (Nat.lt_of_succ_lt ha)
    refine ⟨_, (SameToProgram.rfl' s).countMissOnFault, hT, .inr ⟨hout, ?_⟩⟩
    rw [max_eq_right (by omega)]
    exact hT.cacheReadWord_above ha

/-- Everything a word write can do in a legal state: it is done inside memory and counts two
accesses, or it raises at the first of its two addresses that is not in memory. The state it
leaves is legal in both cases. -/
theorem State.Legal.cacheWriteWord_cases {s : State} (hs : s.Legal) (a : Nat) (w : Word) :
    ∃ u, u.Legal ∧ u.run = s.run ∧
      ((a + 1 < Config.memSize ∧ s.cacheWriteWord a w = .done () u ∧
          u.accesses = s.accesses + 2) ∨
        (¬ a + 1 < Config.memSize ∧
          s.cacheWriteWord a w = .raised .addressOutOfRange (max 65536 a) u)) := by
  rcases Nat.lt_trichotomy a 65535 with ha | rfl | ha
  · obtain ⟨u, hwrite, hsame, hu, hm, hc⟩ :=
      hs.transparent.cacheWriteWord hs.memWf (Nat.succ_lt_succ ha) w
    exact ⟨u, hs.of_setMem hsame hm hu, hsame.control.run,
      .inl ⟨Nat.succ_lt_succ ha, hwrite, hc⟩⟩
  · obtain ⟨u, hwrite, hsame, hu, hm, -⟩ := hs.transparent.cacheWriteWord_last hs.memWf w
    exact ⟨u, hs.of_setMem hsame hm hu, hsame.control.run, .inr ⟨by decide, hwrite⟩⟩
  · have hout := (not_succ_lt_memSize_iff a).2 (Nat.lt_of_succ_lt ha)
    refine ⟨s, hs, rfl, .inr ⟨hout, ?_⟩⟩
    rw [max_eq_right (by omega)]
    exact s.cacheWriteWord_above ha w

/-- Everything an instruction with a memory operand can do in a transparent state. -/
theorem State.Transparent.withMemOperand_cases {s : State} (hT : s.Transparent) (n : Nat)
    (write : Word → State → State) :
    ∃ u, SameToProgram s u ∧ u.Transparent ∧
      ((s.absAddr n + 1 < Config.memSize ∧
          s.withMemOperand n write = .next (write (s.wordAt (s.absAddr n)) u).advance ∧
          u.accesses = s.accesses + 2) ∨
        (¬ s.absAddr n + 1 < Config.memSize ∧ s.withMemOperand n write =
          .next (u.takeFault .addressOutOfRange (max 65536 (s.absAddr n))))) := by
  obtain ⟨u, hsame, hu, hread⟩ := hT.cacheReadWord_cases (s.absAddr n)
  refine ⟨u, hsame, hu, ?_⟩
  unfold State.withMemOperand State.memRead
  rcases hread with ⟨ha, hread, hc⟩ | ⟨ha, hread⟩ <;> rw [hread]
  · exact .inl ⟨ha, rfl, hc⟩
  · exact .inr ⟨ha, rfl⟩

/-- Everything STORE can do in a legal state. -/
theorem State.Legal.exec_store_cases {s : State} (hs : s.Legal) (n : Nat) :
    ∃ u : State, u.Legal ∧ u.run = s.run ∧
      ((s.absAddr n + 1 < Config.memSize ∧ exec (.store n) s = .next u.advance ∧
          u.accesses = s.accesses + 2) ∨
        (¬ s.absAddr n + 1 < Config.memSize ∧ exec (.store n) s =
          .next (u.takeFault .addressOutOfRange (max 65536 (s.absAddr n))))) := by
  obtain ⟨u, hu, hrun, hwrite⟩ := hs.cacheWriteWord_cases (s.absAddr n) s.ac
  refine ⟨u, hu, hrun, ?_⟩
  rw [exec_store_eq]
  rcases hwrite with ⟨ha, hwrite, hc⟩ | ⟨ha, hwrite⟩ <;> rw [hwrite]
  · exact .inl ⟨ha, rfl, hc⟩
  · exact .inr ⟨ha, rfl⟩

/-! ### Updates of a legal state -/

theorem State.Legal.setPc {s : State} (h : s.Legal) (v : Nat) : (s.setPc v).Legal :=
  ⟨h.memWf, h.transparent, h.faultLegal, h.outSigned⟩

theorem State.Legal.advance {s : State} (h : s.Legal) : s.advance.Legal := h.setPc _

theorem State.Legal.setAc {s : State} (h : s.Legal) (v : Word) : (s.setAc v).Legal :=
  ⟨h.memWf, h.transparent, h.faultLegal, h.outSigned⟩

theorem State.Legal.setFlag {s : State} (h : s.Legal) (b : Bool) : (s.setFlag b).Legal :=
  ⟨h.memWf, h.transparent, h.faultLegal, h.outSigned⟩

/-- What DISP emits is a signed 16-bit integer (10_state.md R31). -/
theorem State.Legal.emit {s : State} (h : s.Legal) {v : Int} (hv : IsSigned16 v) :
    (s.emit v).Legal where
  memWf := h.memWf
  transparent := h.transparent
  faultLegal := h.faultLegal
  outSigned x hx := by
    rcases List.mem_append.1 hx with hx | hx
    · exact h.outSigned x hx
    · rw [List.mem_singleton.1 hx]
      exact hv

theorem State.Legal.fault_eq_none {s : State} (h : s.Legal) (hr : s.run = .running) :
    s.fault = none := by
  have hf := h.faultLegal
  unfold State.faultLegal at hf
  cases hfault : s.fault with
  | none => rfl
  | some r => simp [hr, hfault] at hf

/-- A running machine holds no fault record, so it may halt without one (10_state.md R26). -/
theorem State.Legal.halt {s : State} (h : s.Legal) (hr : s.run = .running) : s.halt.Legal where
  memWf := h.memWf
  transparent := h.transparent
  faultLegal := by simp [State.faultLegal, h.fault_eq_none hr]
  outSigned := h.outSigned

theorem State.Legal.takeFault {s : State} (h : s.Legal) {k : FaultKind} {n : Nat}
    (hr : FaultRecord.legal ⟨k, k.code, n⟩ = true) : (s.takeFault k n).Legal :=
  ⟨h.memWf, h.transparent, hr, h.outSigned⟩

/-- A word access raises with an address above memory, as its record asks (60_exceptions.md
R141). -/
theorem FaultRecord.legal_addressOutOfRange (a : Nat) :
    FaultRecord.legal ⟨.addressOutOfRange, FaultKind.addressOutOfRange.code, max 65536 a⟩ =
      true := by
  have : 65535 < max 65536 a := lt_max_of_lt_left (by decide)
  simp [FaultRecord.legal, FaultKind.code, this]

/-- The invalid opcode raises with its own word, as its record asks (60_exceptions.md R142). -/
theorem FaultRecord.legal_invalidOpcode {n : Nat} (hn : n ≤ 4095) :
    FaultRecord.legal ⟨.invalidOpcode, FaultKind.invalidOpcode.code,
      (encodeWord (.invalid n)).toNat⟩ = true := by
  rw [encodeWord_invalid_toNat hn]
  simp only [FaultRecord.legal, FaultKind.code, beq_self_eq_true, Bool.true_and, Bool.and_eq_true,
    decide_eq_true_eq]
  omega

/-! ### A step keeps the legal states -/

/-- An instruction with a memory operand, in a legal state, reads or raises; both leave a legal
state when the register writes do. -/
theorem State.Legal.of_withMemOperand {s t : State} (hs : s.Legal) {n : Nat}
    {write : Word → State → State} (hw : ∀ m u, u.Legal → (write m u).Legal)
    (h : s.withMemOperand n write = .next t) : t.Legal := by
  obtain ⟨u, hsame, hT, ⟨-, hexec, -⟩ | ⟨-, hexec⟩⟩ := hs.transparent.withMemOperand_cases n write
  all_goals
    have hu := hs.of_sameToProgram hsame hT
    cases h.symm.trans hexec
  · exact (hw _ u hu).advance
  · exact hu.takeFault (FaultRecord.legal_addressOutOfRange _)

theorem State.Legal.of_exec_store {s t : State} (hs : s.Legal) {n : Nat}
    (h : exec (.store n) s = .next t) : t.Legal := by
  obtain ⟨u, hu, -, ⟨-, hexec, -⟩ | ⟨-, hexec⟩⟩ := hs.exec_store_cases n <;>
    cases h.symm.trans hexec
  · exact hu.advance
  · exact hu.takeFault (FaultRecord.legal_addressOutOfRange _)

/-- Every well-formed instruction leads a legal running machine to a legal state. -/
theorem State.Legal.of_exec {s t : State} (hs : s.Legal) (hr : s.run = .running) {i : Instr}
    (hi : i.WellFormed) (h : exec i s = .next t) : t.Legal := by
  cases i with
  | start n => cases h; exact hs.advance
  | load n | add n | sub n | mul n => cases h; exact (hs.setAc _).advance
  | jmp n => cases h; exact hs.setPc _
  | cjmp n =>
    cases h
    split
    · exact hs.setPc _
    · exact hs.advance
  | disp n => cases h; exact (hs.emit (signed16_isSigned s.ac)).advance
  | halt n => cases h; exact hs.halt hr
  | invalid n => cases h; exact hs.takeFault (FaultRecord.legal_invalidOpcode hi)
  | loadm n | addm n | subm n | mulm n =>
    exact hs.of_withMemOperand (fun _ _ hu => hu.setAc _) h
  | cmpm n => exact hs.of_withMemOperand (fun _ _ hu => hu.setFlag _) h
  | store n => exact hs.of_exec_store h

/-- Everything the fetch can do in a legal state (30_encoding.md R87, R88). -/
theorem State.Transparent.fetch_cases {s : State} (hT : s.Transparent) :
    ∃ u, SameToProgram s u ∧ u.Transparent ∧
      ((s.pc + 1 < Config.memSize ∧ s.fetch = .done (s.wordAt s.pc) u ∧
          u.accesses = s.accesses + 2) ∨
        (¬ s.pc + 1 < Config.memSize ∧ s.fetch = .raised .addressOutOfRange (max 65536 s.pc) u)) :=
  hT.cacheReadWord_cases s.pc

/-- A step of a running machine with a transparent Cache runs the word at PC, on a state that
differs in the hidden state only, or its fetch raises. -/
theorem State.Transparent.step_cases {s : State} (hT : s.Transparent) (hr : s.run = .running) :
    ∃ u, SameToProgram s u ∧ u.Transparent ∧
      ((s.pc + 1 < Config.memSize ∧ step s = exec (decodeWord (s.wordAt s.pc)) u ∧
          u.accesses = s.accesses + 2) ∨
        (¬ s.pc + 1 < Config.memSize ∧
          step s = .next (u.takeFault .addressOutOfRange (max 65536 s.pc)))) := by
  obtain ⟨u, hsame, hu, ⟨hpc, hf, hc⟩ | ⟨hpc, hf⟩⟩ := hT.fetch_cases
  · exact ⟨u, hsame, hu, .inl ⟨hpc, step_of_fetch hr hf, hc⟩⟩
  · exact ⟨u, hsame, hu, .inr ⟨hpc, step_of_fetch_raised hr hf⟩⟩

theorem State.Legal.of_step {s t : State} (hs : s.Legal) (h : step s = .next t) : t.Legal := by
  have hr := (step_next_iff s).1 ⟨t, h⟩
  obtain ⟨u, hsame, hT, ⟨-, hstep, -⟩ | ⟨-, hstep⟩⟩ := hs.transparent.step_cases hr
  all_goals
    have hu := hs.of_sameToProgram hsame hT
    rw [hstep] at h
  · exact hu.of_exec (hsame.control.run.trans hr) (decodeWord_wellFormed _) h
  · cases h
    exact hu.takeFault (FaultRecord.legal_addressOutOfRange _)

/-! ### What a step does to all that a program can see is a function of it -/

theorem SameToProgram.setPc {s t : State} (h : SameToProgram s t) (v : Nat) :
    SameToProgram (s.setPc v) (t.setPc v) :=
  { h with pc := rfl, control := { h.control with } }

theorem SameToProgram.advance {s t : State} (h : SameToProgram s t) :
    SameToProgram s.advance t.advance :=
  { h with pc := congrArg (· + 2) h.pc, control := { h.control with } }

theorem SameToProgram.setAc {s t : State} (h : SameToProgram s t) (v : Word) :
    SameToProgram (s.setAc v) (t.setAc v) :=
  { h with ac := rfl, control := { h.control with } }

theorem SameToProgram.setFlag {s t : State} (h : SameToProgram s t) (b : Bool) :
    SameToProgram (s.setFlag b) (t.setFlag b) :=
  { h with flag := rfl, control := { h.control with } }

theorem SameToProgram.setMem {s t : State} (h : SameToProgram s t) (m : Memory) :
    SameToProgram (s.setMem m) (t.setMem m) :=
  { h with mem := rfl, control := { h.control with } }

theorem SameToProgram.halt {s t : State} (h : SameToProgram s t) :
    SameToProgram s.halt t.halt :=
  { h with control := { h.control with run := rfl } }

theorem SameToProgram.emit {s t : State} (h : SameToProgram s t) (v : Int) :
    SameToProgram (s.emit v) (t.emit v) :=
  { h with control := { h.control with out := congrArg (· ++ [v]) h.control.out } }

theorem SameToProgram.takeFault {s t : State} (h : SameToProgram s t) (k : FaultKind) (n : Nat) :
    SameToProgram (s.takeFault k n) (t.takeFault k n) :=
  { h with control := { h.control with run := rfl, fault := rfl } }

theorem SameToProgram.absAddr {s t : State} (h : SameToProgram s t) (n : Nat) :
    t.absAddr n = s.absAddr n :=
  congrArg (· + 2 * n) h.control.loadAddress

theorem SameToProgram.wordAt {s t : State} (h : SameToProgram s t) (a : Nat) :
    t.wordAt a = s.wordAt a := by
  unfold State.wordAt
  rw [h.mem]

/-- Both outcomes are next states that a program cannot tell apart. -/
def SameOutcome (e e' : Host.Outcome State Fault Refusal) : Prop :=
  ∃ s' t', e = .next s' ∧ e' = .next t' ∧ SameToProgram s' t'

theorem SameToProgram.sameOutcome_next {s t : State} (h : SameToProgram s t) :
    SameOutcome (.next s) (.next t) :=
  ⟨s, t, rfl, rfl, h⟩

/-- An instruction with a memory operand, from two states that a program cannot tell apart: both
read memory's word or both raise at the same address. -/
theorem SameToProgram.sameOutcome_withMemOperand {s t : State} (h : SameToProgram s t)
    (hs : s.Transparent) (ht : t.Transparent) (n : Nat) {write : Word → State → State}
    (hw : ∀ m {u v}, SameToProgram u v → SameToProgram (write m u) (write m v)) :
    SameOutcome (s.withMemOperand n write) (t.withMemOperand n write) := by
  obtain ⟨u, hsu, -, hexec⟩ := hs.withMemOperand_cases n write
  obtain ⟨v, htv, -, hexec'⟩ := ht.withMemOperand_cases n write
  have huv : SameToProgram u v := hsu.symm.trans (h.trans htv)
  rw [h.absAddr, h.wordAt] at hexec'
  rcases hexec with ⟨ha, hexec, -⟩ | ⟨ha, hexec⟩ <;>
    rcases hexec' with ⟨ha', hexec', -⟩ | ⟨ha', hexec'⟩
  · rw [hexec, hexec']
    exact (hw _ huv).advance.sameOutcome_next
  · exact absurd ha ha'
  · exact absurd ha' ha
  · rw [hexec, hexec']
    exact (huv.takeFault _ _).sameOutcome_next

/-- STORE, from two states that a program cannot tell apart. -/
theorem SameToProgram.sameOutcome_store {s t : State} (h : SameToProgram s t) (n : Nat) :
    SameOutcome (exec (.store n) s) (exec (.store n) t) := by
  rw [exec_store_eq, exec_store_eq, h.absAddr, h.ac]
  rcases s.cacheWriteWord_cases (s.absAddr n) s.ac with
    ⟨ha, u, hwrite, hu⟩ | ⟨ha, u, hwrite, hu⟩ | ⟨ha, hwrite⟩ <;>
  rcases t.cacheWriteWord_cases (s.absAddr n) s.ac with
    ⟨ha', v, hwrite', hv⟩ | ⟨ha', v, hwrite', hv⟩ | ⟨ha', hwrite'⟩
  case inl.inl =>
    rw [hwrite, hwrite']
    rw [h.mem] at hv
    exact (hu.symm.trans ((h.setMem _).trans hv)).advance.sameOutcome_next
  case inr.inl.inr.inl =>
    rw [hwrite, hwrite']
    rw [h.mem] at hv
    exact ((hu.symm.trans ((h.setMem _).trans hv)).takeFault _ _).sameOutcome_next
  case inr.inr.inr.inr =>
    rw [hwrite, hwrite']
    exact (h.takeFault _ _).sameOutcome_next
  all_goals
    have hsize : Config.memSize = 65536 := rfl
    omega

/-- No instruction sees LINE, HITS or MISSES (10_state.md R34). -/
theorem SameToProgram.sameOutcome_exec {s t : State} (h : SameToProgram s t) (hs : s.Transparent)
    (ht : t.Transparent) (i : Instr) : SameOutcome (exec i s) (exec i t) := by
  have memOperand := fun n write => h.sameOutcome_withMemOperand hs ht n (write := write)
  cases i with
  | start n => exact h.advance.sameOutcome_next
  | load n => exact (h.setAc _).advance.sameOutcome_next
  | add n | sub n | mul n =>
    refine (SameToProgram.advance ?_).sameOutcome_next
    rw [h.ac]
    exact h.setAc _
  | jmp n =>
    refine SameToProgram.sameOutcome_next ?_
    rw [h.absAddr]
    exact h.setPc _
  | cjmp n =>
    refine SameToProgram.sameOutcome_next ?_
    rw [h.flag, h.absAddr]
    split
    · exact h.setPc _
    · exact h.advance
  | disp n =>
    refine (SameToProgram.advance ?_).sameOutcome_next
    rw [h.ac]
    exact h.emit _
  | halt n => exact h.halt.sameOutcome_next
  | invalid n => exact (h.takeFault _ _).sameOutcome_next
  | loadm n => exact memOperand n _ fun m _ _ huv => huv.setAc m
  | addm n | subm n | mulm n =>
    refine memOperand n _ fun m u v huv => ?_
    rw [huv.ac]
    exact huv.setAc _
  | cmpm n =>
    refine memOperand n _ fun m u v huv => ?_
    rw [huv.ac]
    exact huv.setFlag _
  | store n => exact h.sameOutcome_store n

/-- A step of a running machine does not see LINE, HITS or MISSES. -/
theorem SameToProgram.sameOutcome_step {s t : State} (h : SameToProgram s t) (hs : s.Transparent)
    (ht : t.Transparent) (hr : s.run = .running) : SameOutcome (step s) (step t) := by
  obtain ⟨u, hsu, hu, hstep⟩ := hs.step_cases hr
  obtain ⟨v, htv, hv, hstep'⟩ := ht.step_cases (h.control.run.trans hr)
  have huv : SameToProgram u v := hsu.symm.trans (h.trans htv)
  rw [h.pc, h.wordAt] at hstep'
  rcases hstep with ⟨hpc, hstep, -⟩ | ⟨hpc, hstep⟩ <;>
    rcases hstep' with ⟨hpc', hstep', -⟩ | ⟨hpc', hstep'⟩
  · rw [hstep, hstep']
    exact huv.sameOutcome_exec hu hv _
  · exact absurd hpc hpc'
  · exact absurd hpc' hpc
  · rw [hstep, hstep']
    exact (huv.takeFault _ _).sameOutcome_next

theorem step_of_halted {s : State} (h : s.run = .halted) : step s = .fault .stepAfterHalt := by
  unfold step
  rw [h]

theorem step_of_faulted {s : State} (h : s.run = .faulted) :
    step s = .fault .stepAfterFault := by
  unfold step
  rw [h]

end Sys2Proof.Machine

/-! ### The statements about legal states and the hidden state (10_state.md R34, 20_memory.md
R56) -/

namespace Sys2Proof.Proofs

open Sys2Proof.Machine

/-- Settles O3: the fetch and every instruction keep legality. -/
theorem stepKeepsLegal : Obligations.StepKeepsLegal := fun _ _ hs h => hs.of_step h

/-- Settles O16: running states step alike, and the others stop by RUN alone. -/
theorem stepDoesNotSeeTheCache : Obligations.StepDoesNotSeeTheCache := by
  intro s t hs ht h
  refine ⟨fun s' hstep => ?_, fun r hstep => ?_⟩
  · obtain ⟨s'', t', hs', ht', hsame⟩ :=
      h.sameOutcome_step hs.transparent ht.transparent ((step_next_iff s).1 ⟨s', hstep⟩)
    cases hs'.symm.trans hstep
    exact ⟨t', ht', hsame⟩
  · cases hr : s.run with
    | running =>
      obtain ⟨t', ht'⟩ := (step_next_iff s).2 hr
      cases ht'.symm.trans hstep
    | halted =>
      rw [step_of_halted hr] at hstep
      rw [step_of_halted (h.control.run.trans hr), hstep]
    | faulted =>
      rw [step_of_faulted hr] at hstep
      rw [step_of_faulted (h.control.run.trans hr), hstep]

/-- Settles O17, by induction on the number of steps: each step keeps both states legal and
alike. -/
theorem runsDoNotSeeTheCache : Obligations.RunsDoNotSeeTheCache := by
  intro n
  induction n with
  | zero =>
    intro s t s' _ _ h hrun
    cases hrun
    exact ⟨t, rfl, h, h.control.out⟩
  | succ n ih =>
    intro s t s' hs ht h ⟨u, hstep, hrun⟩
    obtain ⟨v, hstep', huv⟩ := (stepDoesNotSeeTheCache s t hs ht h).1 u hstep
    obtain ⟨t', hrun', hsame, hout⟩ := ih u v s' (hs.of_step hstep) (ht.of_step hstep') huv hrun
    exact ⟨t', ⟨v, hstep', hrun'⟩, hsame, hout⟩

end Sys2Proof.Proofs

/-! ### What an instruction writes, component by component -/

namespace Sys2Proof

/-- The six instructions that make a data access (20_memory.md R60). -/
abbrev Instr.AccessesData (i : Instr) : Prop := i.opcode ∈ [0x2, 0x3, 0x4, 0x8, 0xA, 0xC]

/-- The eight instructions that write AC (10_state.md R21). -/
abbrev Instr.WritesAc (i : Instr) : Prop :=
  i.opcode ∈ [0x1, 0x2, 0x7, 0x8, 0x9, 0xA, 0xB, 0xC]

end Sys2Proof

namespace Sys2Proof.Machine

/-- What memory can be after STORE: both bytes of AC are written, or the low byte alone when it
lies at the last address, or none. -/
inductive StoredWord (s t : State) (a : Nat) : Prop
  | both (mem : t.mem = (s.mem.write a (lowByte s.ac)).write (a + 1) (highByte s.ac))
      (run : t.run = s.run)
  | lowByteOnly (last : a = 65535) (mem : t.mem = s.mem.write a (lowByte s.ac))
  | none (mem : t.mem = s.mem)

/-- What the instruction `i` may write, in any state and whether or not it raises: each component
but RUN, FAULT and FLAG, with the instructions that write it. -/
structure Writes (i : Instr) (s t : State) : Prop where
  loadAddress : t.loadAddress = s.loadAddress
  initialPc : t.initialPc = s.initialPc
  pc : t.pc = s.pc ∨ t.pc = s.pc + 2 ∨ ∃ n, t.pc = s.absAddr n
  ac : t.ac = s.ac ∨ i.WritesAc
  out : t.out = s.out ∨ ((∃ n, i = .disp n) ∧ t.out = s.out ++ [signed16 s.ac])
  mem : t.mem = s.mem ∨ ∃ n, i = .store n ∧ StoredWord s t (s.absAddr n)
  counters : (t.hits = s.hits ∧ t.misses = s.misses) ∨ i.AccessesData

/-- An instruction with a memory operand writes AC or FLAG, PC, and the hidden state. -/
theorem writes_withMemOperand {i : Instr} {s t : State} {n : Nat} {write : Word → State → State}
    (h : s.withMemOperand n write = .next t) (hcount : i.AccessesData)
    (hw : ∀ m u, write m u = (u.setAc (write m u).ac).setFlag (write m u).flag ∧
      ((write m u).ac = u.ac ∨ i.WritesAc)) :
    Writes i s t := by
  rcases s.withMemOperand_cases n write with ⟨m, u, -, hs, hexec⟩ | ⟨k, a, u, -, hs, hexec⟩ <;>
    cases h.symm.trans hexec
  · obtain ⟨hwrite, hac⟩ := hw m u
    rw [hwrite]
    exact
      { loadAddress := hs.control.loadAddress
        initialPc := hs.control.initialPc
        pc := .inr (.inl (congrArg (· + 2) hs.pc))
        ac := hac.imp_left (·.trans hs.ac)
        out := .inl hs.control.out
        mem := .inl hs.mem
        counters := .inr hcount }
  · exact
      { loadAddress := hs.control.loadAddress
        initialPc := hs.control.initialPc
        pc := .inl hs.pc
        ac := .inl hs.ac
        out := .inl hs.control.out
        mem := .inl hs.mem
        counters := .inr hcount }

/-- STORE writes its word and PC, or raises. -/
theorem writes_store {s t : State} {n : Nat} (h : exec (.store n) s = .next t) :
    Writes (.store n) s t := by
  have hcount : (Instr.store n).AccessesData := by simp [Instr.opcode]
  rw [exec_store_eq] at h
  rcases s.cacheWriteWord_cases (s.absAddr n) s.ac with
    ⟨-, u, hwrite, hs⟩ | ⟨hlast, u, hwrite, hs⟩ | ⟨-, hwrite⟩ <;>
    rw [hwrite] at h <;> cases h
  · exact ⟨hs.control.loadAddress, hs.control.initialPc, .inr (.inl (congrArg (· + 2) hs.pc)),
      .inl hs.ac, .inl hs.control.out, .inr ⟨n, rfl, .both hs.mem hs.control.run⟩, .inr hcount⟩
  · exact ⟨hs.control.loadAddress, hs.control.initialPc, .inl hs.pc, .inl hs.ac,
      .inl hs.control.out, .inr ⟨n, rfl, .lowByteOnly hlast hs.mem⟩, .inr hcount⟩
  · exact ⟨rfl, rfl, .inl rfl, .inl rfl, .inl rfl, .inl rfl, .inr hcount⟩

theorem exec_writes {i : Instr} {s t : State} (h : exec i s = .next t) : Writes i s t := by
  cases i with
  | start n =>
    cases h
    exact ⟨rfl, rfl, .inr (.inl rfl), .inl rfl, .inl rfl, .inl rfl, .inl ⟨rfl, rfl⟩⟩
  | load n | add n | sub n | mul n =>
    cases h
    exact ⟨rfl, rfl, .inr (.inl rfl), .inr (by simp [Instr.opcode]), .inl rfl, .inl rfl,
      .inl ⟨rfl, rfl⟩⟩
  | jmp n =>
    cases h
    exact ⟨rfl, rfl, .inr (.inr ⟨n, rfl⟩), .inl rfl, .inl rfl, .inl rfl, .inl ⟨rfl, rfl⟩⟩
  | cjmp n =>
    cases h
    split
    · exact ⟨rfl, rfl, .inr (.inr ⟨n, rfl⟩), .inl rfl, .inl rfl, .inl rfl, .inl ⟨rfl, rfl⟩⟩
    · exact ⟨rfl, rfl, .inr (.inl rfl), .inl rfl, .inl rfl, .inl rfl, .inl ⟨rfl, rfl⟩⟩
  | disp n =>
    cases h
    exact ⟨rfl, rfl, .inr (.inl rfl), .inl rfl, .inr ⟨⟨n, rfl⟩, rfl⟩, .inl rfl, .inl ⟨rfl, rfl⟩⟩
  | halt n | invalid n =>
    cases h
    exact ⟨rfl, rfl, .inl rfl, .inl rfl, .inl rfl, .inl rfl, .inl ⟨rfl, rfl⟩⟩
  | loadm n | addm n | subm n | mulm n =>
    exact writes_withMemOperand h (by simp [Instr.opcode])
      fun _ _ => ⟨rfl, .inr (by simp [Instr.opcode])⟩
  | cmpm n =>
    exact writes_withMemOperand h (by simp [Instr.opcode]) fun _ _ => ⟨rfl, .inl rfl⟩
  | store n => exact writes_store h

/-! ### Instructions that do not read AC -/

theorem componentWrite_setAc : ComponentWrite State.setAc where
  apart _ := ⟨fun _ => rfl, fun _ => rfl, fun _ => rfl, fun _ => rfl, fun _ => rfl,
    fun _ _ _ => rfl, fun _ _ => rfl⟩
  loadAddress _ _ := rfl
  takeFault _ v _ _ := ⟨v, rfl⟩

/-- START, LOAD, LOADM, CJMP, JMP, HALT and the invalid opcode do not read AC (10_state.md R21);
LOAD and LOADM overwrite it. -/
theorem exec_unread_ac {i : Instr} (hi : i.opcode ∈ [0x0, 0x1, 0x2, 0x5, 0x6, 0xE, 0xF]) :
    Unread State.setAc (exec i) := by
  cases i with
  | start n | jmp n | halt n | invalid n => exact fun _ v => ⟨_, v, rfl, rfl⟩
  | load n => exact fun _ _ => ⟨_, immediate n, rfl, rfl⟩
  | cjmp n =>
    intro s v
    refine ⟨_, v, rfl, congrArg Host.Outcome.next ?_⟩
    change (if s.flag then _ else _) = _
    split <;> rfl
  | loadm n => exact componentWrite_setAc.withMemOperand n fun m _ _ => ⟨m, rfl⟩
  | add n | sub n | mul n | disp n | cmpm n | addm n | subm n | mulm n | store n =>
    exact absurd hi (by simp [Instr.opcode])

/-! ### What a step writes -/

/-- Everything a step can write, in any state: nothing that a program can see but for a raised
fault, or what the fetched instruction writes. -/
theorem step_writes {s t : State} (h : step s = .next t) :
    (∃ k n u, SameToProgram s u ∧ t = u.takeFault k n) ∨
      ∃ w u, s.fetch = .done w u ∧ SameToProgram s u ∧ exec (decodeWord w) u = .next t ∧
        Writes (decodeWord w) u t := by
  obtain ⟨-, ⟨w, u, hf, hexec⟩ | ⟨k, n, u, hf, rfl⟩⟩ := step_cases h
  · exact .inr ⟨w, u, hf, State.fetch_done_frame hf, hexec, exec_writes hexec⟩
  · exact .inl ⟨k, n, u, State.fetch_raised_frame hf, rfl⟩

/-- No step changes the configuration (10_state.md R27). -/
theorem step_config {s t : State} (h : step s = .next t) :
    t.loadAddress = s.loadAddress ∧ t.initialPc = s.initialPc := by
  obtain ⟨k, n, u, hs, rfl⟩ | ⟨w, u, -, hs, -, hw⟩ := step_writes h
  · exact ⟨hs.control.loadAddress, hs.control.initialPc⟩
  · exact ⟨hw.loadAddress.trans hs.control.loadAddress, hw.initialPc.trans hs.control.initialPc⟩

/-- OUT after a step (10_state.md R31). -/
theorem step_out {s t : State} (h : step s = .next t) : t.out = s.out ∨
    ∃ w u n, s.fetch = .done w u ∧ decodeWord w = .disp n ∧ t.out = s.out ++ [signed16 s.ac] := by
  obtain ⟨k, n, u, hs, rfl⟩ | ⟨w, u, hf, hs, -, hw⟩ := step_writes h
  · exact .inl hs.control.out
  · rw [← hs.control.out, ← hs.ac]
    exact hw.out.imp_right fun ⟨⟨n, hn⟩, hout⟩ => ⟨w, u, n, hf, hn, hout⟩

/-- PC after a step (10_state.md R23). -/
theorem step_pc {s t : State} (h : step s = .next t) :
    t.pc = s.pc ∨ t.pc = s.pc + 2 ∨ ∃ n, t.pc = s.absAddr n := by
  obtain ⟨k, n, u, hs, rfl⟩ | ⟨w, u, -, hs, -, hw⟩ := step_writes h
  · exact .inl hs.pc
  · rw [← hs.pc]
    exact hw.pc.imp_right (Or.imp_right fun ⟨n, hn⟩ => ⟨n, hn.trans (hs.absAddr n)⟩)

/-- PC and LOAD_ADDRESS have one parity (70_reset_and_hazards.md, alignment). -/
def State.Aligned (s : State) : Prop := s.pc % 2 = s.loadAddress % 2

theorem State.Aligned.of_step {s t : State} (hs : s.Aligned) (h : step s = .next t) :
    t.Aligned := by
  unfold State.Aligned at hs ⊢
  rw [(step_config h).1]
  rcases step_pc h with hpc | hpc | ⟨n, hpc⟩
  · rw [hpc, hs]
  · rw [hpc, Nat.add_mod_right, hs]
  · rw [hpc, State.absAddr, Nat.add_mul_mod_self_left]

/-! ### What a faulting step leaves (60_exceptions.md R146) -/

/-- An instruction that ends a running machine faulted raised its fault beside memory and Cache;
memory differs in the byte at 65535 at most. -/
theorem exec_faulted {i : Instr} {s t : State} (h : exec i s = .next t) (hr : s.run = .running)
    (ht : t.run = .faulted) :
    (∃ m u k a, SameToProgram (s.setMem m) u ∧ t = u.takeFault k a) ∧
      ∀ a, a ≠ 65535 → t.mem.read a = s.mem.read a := by
  constructor
  · refine (exec_cases h).resolve_right fun hc => ?_
    rcases hc.run with hrun | ⟨hrun, -⟩ <;> simp [hrun, hr] at ht
  · intro a ha
    rcases (exec_writes h).mem with hmem | ⟨n, -, ⟨-, hrun⟩ | ⟨hlast, hmem⟩ | hmem⟩
    · rw [hmem]
    · simp [hrun, hr] at ht
    · rw [hmem, hlast]
      exact Memory.read_write_ne ha _ _
    · rw [hmem]

/-- The same of a step, whether its fetch or its instruction raised. -/
theorem step_faulted {s t : State} (h : step s = .next t) (ht : t.run = .faulted) :
    (∃ m u k a, SameToProgram (s.setMem m) u ∧ t = u.takeFault k a) ∧
      ∀ a, a ≠ 65535 → t.mem.read a = s.mem.read a := by
  obtain ⟨k, n, u, hs, rfl⟩ | ⟨w, u, -, hs, hexec, -⟩ := step_writes h
  · exact ⟨⟨s.mem, u, k, n, hs, rfl⟩, fun a _ => congrArg (Memory.read · a) hs.mem⟩
  · have hr := hs.control.run.trans ((step_next_iff s).1 ⟨t, h⟩)
    obtain ⟨⟨m, v, k, a, hv, htake⟩, hmem⟩ := exec_faulted hexec hr ht
    exact ⟨⟨m, v, k, a, (hs.setMem m).trans hv, htake⟩, fun a ha => by rw [hmem a ha, hs.mem]⟩

end Sys2Proof.Machine

/-! ### The statements about AC, the configuration, OUT, PC's parity, memory's writer and what a
fault leaves (10_state.md, 20_memory.md R64, 60_exceptions.md R146) -/

namespace Sys2Proof.Proofs

open Sys2Proof.Machine

/-- Settles O6: the writers from what each instruction writes, the readers from those that go on
alike whatever AC holds. -/
theorem accumulatorWritersAndReaders : Obligations.AccumulatorWritersAndReaders := by
  refine ⟨fun i s t h hi => (exec_writes h).ac.resolve_right hi, fun i s t v h hi => ?_⟩
  obtain ⟨t', v', ht, hu⟩ := exec_unread_ac hi s v
  cases h.symm.trans ht
  exact ⟨t.setAc v', hu, rfl⟩

/-- Settles O7: no step changes the configuration. -/
theorem configurationIsConstant : Obligations.ConfigurationIsConstant := by
  intro n s t hrun
  refine hrun.keeps (P := fun u => u.loadAddress = s.loadAddress ∧ u.initialPc = s.initialPc)
    (fun u v hu hstep => ?_) ⟨rfl, rfl⟩
  obtain ⟨hla, hip⟩ := step_config hstep
  exact ⟨hla.trans hu.1, hip.trans hu.2⟩

/-- Settles O8: a step keeps OUT or appends one value, so what was emitted stays. -/
theorem outputIsNeverRetracted : Obligations.OutputIsNeverRetracted := by
  refine ⟨fun n s t hrun => ?_, fun s t => step_out⟩
  refine hrun.keeps (P := fun u => s.out <+: u.out) (fun u v hu hstep => ?_) (List.prefix_refl _)
  rcases step_out hstep with hout | ⟨_, _, _, -, -, hout⟩ <;> rw [hout]
  · exact hu
  · exact hu.trans (List.prefix_append _ _)

/-- Settles O20: memory after an instruction, and the reach of the twelve operand bits. -/
theorem onlyStoreWritesItsWord : Obligations.OnlyStoreWritesItsWord := by
  refine ⟨fun i s t h hi => ?_, fun n a s t h ha ha' => ?_, fun i s hi => ?_⟩
  · exact (exec_writes h).mem.resolve_right fun ⟨n, hn, _⟩ => hi n hn
  · rcases (exec_writes h).mem with hmem | ⟨k, hk, hstored⟩
    · rw [hmem]
    · cases hk
      rcases hstored with ⟨hmem, -⟩ | ⟨-, hmem⟩ | hmem <;> rw [hmem]
      · rw [Memory.read_write_ne ha', Memory.read_write_ne ha]
      · rw [Memory.read_write_ne ha]
  · unfold Instr.WellFormed at hi
    unfold State.absAddr
    omega

/-- Settles O45: the fault is taken in a state that differs from the step's in memory and Cache
only, and in memory at 65535 only. -/
theorem faultsKeepRegistersOutputAndAllBytesButTheLast :
    Obligations.FaultsKeepRegistersOutputAndAllBytesButTheLast := by
  intro s t h ht
  obtain ⟨⟨m, u, k, a, hs, rfl⟩, hmem⟩ := step_faulted h ht
  exact ⟨hs.pc, hs.ac, hs.flag, hs.control.out, hs.control.loadAddress, hs.control.initialPc,
    ⟨_, rfl, rfl⟩, hmem⟩

/-- Settles O52: every way on from PC keeps the parity, for words take two bytes. -/
theorem pcKeepsTheParityOfTheProgram : Obligations.PcKeepsTheParityOfTheProgram := by
  refine ⟨fun s t hs h => State.Aligned.of_step hs h, fun la ip m n t hip hrun => ?_⟩
  have haligned : t.Aligned := hrun.keeps (fun _ _ hu h => State.Aligned.of_step hu h) hip
  rwa [State.Aligned, (configurationIsConstant n _ t hrun).1] at haligned

end Sys2Proof.Proofs

/-! ### Decode and encode are inverse (30_encoding.md R81, R89) -/

namespace Sys2Proof

theorem decodeWord_encodeWord {i : Instr} (hi : i.WellFormed) : decodeWord (encodeWord i) = i := by
  obtain ⟨hopcode, hoperand⟩ := Laws.EncodedFields.fields_of_encodeWord hi
  rw [decodeWord, hopcode, hoperand, instrOfFields_self]

theorem encodeWord_decodeWord (w : Word) : encodeWord (decodeWord w) = w := by
  apply BitVec.eq_of_toNat_eq
  rw [encodeWord_toNat (decodeWord_wellFormed w), decodeWord_opcode, decodeWord_operand]
  exact (toNat_eq_fields w).symm

@[simp] theorem decode_cons_cons (lo hi : Byte) (rest : List Byte) :
    decode (lo :: hi :: rest) = .ok (decodeWord (wordOfBytes lo hi), rest) := rfl

theorem decode_encode {i : Instr} (hi : i.WellFormed) (rest : List Byte) :
    decode (encode i ++ rest) = .ok (i, rest) := by
  change decode (lowByte (encodeWord i) :: highByte (encodeWord i) :: rest) = _
  rw [decode_cons_cons, wordOfBytes_low_high, decodeWord_encodeWord hi]

theorem encode_decodeWord (lo hi : Byte) :
    encode (decodeWord (wordOfBytes lo hi)) = [lo, hi] := by
  rw [encode, encodeWord_decodeWord, lowByte_wordOfBytes, highByte_wordOfBytes]

/-- An encoding belongs to one well-formed instruction, the one that its bytes decode to. -/
theorem eq_decodeWord_of_encode {j : Instr} (hj : j.WellFormed) {lo hi : Byte}
    (h : encode j = [lo, hi]) : j = decodeWord (wordOfBytes lo hi) := by
  have hdecode := decode_encode hj []
  rw [h] at hdecode
  cases hdecode
  rfl

/-! ### Assembly statements (30_encoding.md R90) -/

theorem assembleLine_of_not_wellFormed {l : SourceLine} (h : l.wellFormed = false) :
    assembleLine l = none := by
  unfold assembleLine
  rw [h, if_neg Bool.false_ne_true]

@[simp] theorem Mnemonic.operand_toInstr (m : Mnemonic) (n : Nat) : (m.toInstr n).operand = n := by
  cases m <;> rfl

/-- The operand of a legal statement fits the field. -/
theorem SourceLine.value_le {m : Mnemonic} {o : SourceOperand}
    (h : (SourceLine.statement m o).wellFormed = true) : o.value ≤ 4095 := by
  cases o with
  | absent => exact Nat.zero_le _
  | hash n | slot n =>
    rw [SourceLine.wellFormed, Bool.and_eq_true, decide_eq_true_eq] at h
    exact h.2

namespace Machine

/-- The word of a legal statement is that of its mnemonic's instruction. -/
theorem assemblesTo_of_wellFormed {m : Mnemonic} {o : SourceOperand} {opcode : Nat}
    (h : (SourceLine.statement m o).wellFormed = true)
    (hopcode : (m.toInstr o.value).opcode = opcode) :
    AssemblesTo (.statement m o) opcode o.value := by
  subst hopcode
  have hi : (m.toInstr o.value).WellFormed := by
    rw [Instr.WellFormed, Mnemonic.operand_toInstr]
    exact SourceLine.value_le h
  refine ⟨encodeWord (m.toInstr o.value), ?_, ?_, ?_, ?_⟩
  · rw [assembleLine, if_pos h]
  · rw [encodeWord_toNat hi, Mnemonic.operand_toInstr]
  · rw [decodeWord_encodeWord hi]
  · rw [decodeWord_encodeWord hi, Mnemonic.operand_toInstr]

/-- The two readings of a word agree modulo 65536. -/
theorem toNat_modEq_signed16 (w : Word) : (w.toNat : Int) ≡ signed16 w [ZMOD 65536] := by
  rw [← signed16_emod w]
  exact Int.mod_modEq _ _

theorem addWords_eq_signed (a m : Word) : addWords a m = trunc16 (signed16 a + signed16 m) :=
  trunc16_congr ((toNat_modEq_signed16 a).add (toNat_modEq_signed16 m))

theorem subWords_eq_signed (a m : Word) : subWords a m = trunc16 (signed16 a - signed16 m) :=
  trunc16_congr ((toNat_modEq_signed16 a).sub (toNat_modEq_signed16 m))

theorem mulWords_eq_signed (a m : Word) : mulWords a m = trunc16 (signed16 a * signed16 m) :=
  trunc16_congr ((toNat_modEq_signed16 a).mul (toNat_modEq_signed16 m))

/-! ### hitRatio (20_memory.md R57) -/

theorem hitRatio_zero : hitRatio 0 0 = 0 := if_pos rfl

theorem hitRatio_of_pos {h m : Nat} (hpos : 0 < h + m) :
    hitRatio h m = 100 * h / ((h : Rat) + m) := by
  rw [hitRatio, if_neg hpos.ne', Nat.cast_mul, Nat.cast_add, Nat.cast_ofNat, mul_comm]

/-! ### Which counter an access moves (20_memory.md R49, R50, R51) -/

/-- From `s` to `t` one access to `a` is counted: a hit when the line holds the block of `a`, a
miss otherwise. -/
structure CountsAccess (s : State) (a : Nat) (t : State) : Prop where
  hits : t.hits = s.hits + (if s.isHit a then 1 else 0)
  misses : t.misses = s.misses + (if s.isHit a then 0 else 1)

theorem State.cacheReadByte_countsAccess (s : State) {a : Nat} (ha : inRange a) :
    CountsAccess s a (s.cacheReadByte a).state := by
  rcases s.cacheReadByte_cases a with ⟨hh, h⟩ | ⟨_, hr, _⟩ | ⟨hh, _, h⟩
  · rw [h]
    exact ⟨by rw [if_pos hh]; rfl, by rw [if_pos hh]; rfl⟩
  · exact absurd ha hr
  · rw [h]
    exact ⟨by rw [hh]; rfl, by rw [hh]; rfl⟩

theorem State.cacheWriteByte_countsAccess (s : State) {a : Nat} (ha : inRange a) (v : Byte) :
    CountsAccess s a (s.cacheWriteByte a v).state := by
  rw [s.cacheWriteByte_inRange ha v]
  obtain ⟨hhits, hmisses⟩ := (s.setMem (s.mem.write a v)).cacheUpdateByte_counts a v
  exact ⟨hhits, hmisses⟩

theorem SameCache.rfl' (s : State) : SameCache s s := ⟨rfl, rfl, rfl⟩

theorem State.rawReadByte_sameCache (s : State) (a : Nat) :
    SameCache s (s.rawReadByte a).state := by
  unfold State.rawReadByte
  split <;> exact SameCache.rfl' s

theorem State.rawWriteByte_sameCache (s : State) (a : Nat) (v : Byte) :
    SameCache s (s.rawWriteByte a v).state := by
  unfold State.rawWriteByte
  split <;> exact ⟨rfl, rfl, rfl⟩

theorem State.rawReadWord_sameCache (s : State) (a : Nat) :
    SameCache s (s.rawReadWord a).state := by
  unfold State.rawReadWord
  split
  · exact SameCache.rfl' s
  · split <;> exact SameCache.rfl' s

theorem State.rawWriteWord_sameCache (s : State) (a : Nat) (w : Word) :
    SameCache s (s.rawWriteWord a w).state := by
  rcases s.rawWriteWord_cases a w with ⟨-, h⟩ | ⟨-, h⟩ | ⟨-, h⟩ <;> rw [h] <;>
    exact ⟨rfl, rfl, rfl⟩

/-! ### An access repeated at once (95_test_vectors.md S4, S5) -/

/-- A byte read of an address whose line holds its block gives the line's byte and counts a hit. -/
theorem State.cacheReadByte_of_hit {s : State} {a : Nat} (h : s.isHit a = true) {v : Byte}
    (hv : (s.lineOf a).data[blockOffset a] = v) : s.cacheReadByte a = .done v s.countHit := by
  rw [State.cacheReadByte, if_pos h, hv]

/-- After a byte read inside memory the line of the address holds it, with the byte read. -/
theorem State.cacheReadByte_line (s : State) {a : Nat} (ha : inRange a) :
    ∃ v t, s.cacheReadByte a = .done v t ∧ t.isHit a = true ∧
      (t.lineOf a).data[blockOffset a] = v := by
  rcases s.cacheReadByte_cases a with ⟨hh, h⟩ | ⟨_, hr, _⟩ | ⟨_, _, h⟩
  · exact ⟨_, _, h, hh, rfl⟩
  · exact absurd ha hr
  · refine ⟨_, _, h, (s.filledByMiss_fillLine a).hit, ?_⟩
    rw [State.lineOf_fillLine]
    exact s.loadBlock_offset a

theorem State.isHit_of_invalid {s : State} {a : Nat} (h : (s.lineOf a).valid = false) :
    s.isHit a = false := by
  rw [State.isHit, h, Bool.false_and]

/-! ### Byte accesses through the Cache and straight to Memory (95_test_vectors.md S3) -/

/-- `s`, with its Cache, stands for the uncached state `t`: one memory, which the Cache mirrors. -/
structure CachedAndUncached (s t : State) : Prop where
  memWf : s.mem.wf = true
  transparent : s.Transparent
  mem : t.mem = s.mem

theorem CachedAndUncached.read {s t : State} (h : CachedAndUncached s t) (a : Nat) :
    (s.cacheReadByte a).value = (t.rawReadByte a).value ∧
      CachedAndUncached (s.cacheReadByte a).state (t.rawReadByte a).state := by
  by_cases ha : inRange a
  · obtain ⟨u, hread, hs, hu, -⟩ := h.transparent.cacheReadByte ha
    rw [hread, t.rawReadByte_inRange ha, h.mem]
    exact ⟨rfl, by rw [Access.state_done, hs.mem]; exact h.memWf, hu, h.mem.trans hs.mem.symm⟩
  · rw [h.transparent.cacheReadByte_raises ha, t.rawReadByte_raises ha]
    exact ⟨rfl, h.memWf, h.transparent, h.mem⟩

theorem CachedAndUncached.write {s t : State} (h : CachedAndUncached s t) (a : Nat) (v : Byte) :
    CachedAndUncached (s.cacheWriteByte a v).state (t.rawWriteByte a v).state := by
  by_cases ha : inRange a
  · obtain ⟨u, hwrite, hs, hu, hm, -⟩ := h.transparent.cacheWriteByte h.memWf ha v
    rw [hwrite, t.rawWriteByte_inRange ha, h.mem]
    exact ⟨hm, hu, hs.mem.symm⟩
  · rw [s.cacheWriteByte_raises ha, t.rawWriteByte_raises ha]
    exact h

theorem CachedAndUncached.values_eq (l : List ByteAccess) :
    ∀ {s t : State}, CachedAndUncached s t → valuesThroughCache s l = valuesUncached t l := by
  induction l with
  | nil => exact fun _ => rfl
  | cons x rest ih =>
    intro s t h
    cases x with
    | read a =>
      obtain ⟨hvalue, hnext⟩ := h.read a
      rw [valuesThroughCache, valuesUncached, hvalue, ih hnext]
    | write a v =>
      rw [valuesThroughCache, valuesUncached, ih (h.write a v)]

/-! ### The data accesses of an instruction (20_memory.md R60) -/

/-- A word of data read, when the instruction does not end faulted, counts two accesses. -/
theorem State.Transparent.withMemOperand_accesses {s t : State} (hT : s.Transparent) {n : Nat}
    {write : Word → State → State} (h : s.withMemOperand n write = .next t)
    (hw : ∀ m u, (write m u).accesses = u.accesses) (ht : t.run ≠ .faulted) :
    t.accesses = s.accesses + 2 := by
  obtain ⟨u, -, -, ⟨-, hexec, hc⟩ | ⟨-, hexec⟩⟩ := hT.withMemOperand_cases n write <;>
    cases h.symm.trans hexec
  · exact (hw _ u).trans hc
  · exact absurd rfl ht

theorem State.Legal.exec_store_accesses {s t : State} (hs : s.Legal) {n : Nat}
    (h : exec (.store n) s = .next t) (ht : t.run ≠ .faulted) :
    t.accesses = s.accesses + 2 := by
  obtain ⟨u, -, -, ⟨-, hexec, hc⟩ | ⟨-, hexec⟩⟩ := hs.exec_store_cases n <;>
    cases h.symm.trans hexec
  · exact hc
  · exact absurd rfl ht

theorem State.Legal.exec_accesses {s t : State} (hs : s.Legal) {i : Instr}
    (hi : i.AccessesData) (h : exec i s = .next t) (ht : t.run ≠ .faulted) :
    t.accesses = s.accesses + 2 := by
  cases i with
  | loadm n | cmpm n | addm n | subm n | mulm n =>
    exact hs.transparent.withMemOperand_accesses h (fun _ _ => rfl) ht
  | store n => exact hs.exec_store_accesses h ht
  | start n | load n | cjmp n | jmp n | add n | sub n | mul n | disp n | halt n | invalid n =>
    exact absurd hi (by simp [Instr.opcode])

end Machine

end Sys2Proof

/-! ### The statements about encodings and assembly statements (30_encoding.md R80-R90) -/

namespace Sys2Proof.Proofs

open Sys2Proof.Machine

/-- Settles O24: the two bytes give the word back, and its two fields the instruction. -/
theorem decodeOfEncodeIsIdentity : Obligations.DecodeOfEncodeIsIdentity :=
  fun _ rest hi => decode_encode hi rest

/-- Settles O25: the one instruction is the one that the bytes decode to. -/
theorem decodeIsTotalAndExact : Obligations.DecodeIsTotalAndExact := by
  refine ⟨fun lo hi rest => ?_, fun _ => rfl, rfl⟩
  exact ⟨decodeWord (wordOfBytes lo hi), decodeWord_wellFormed _, decode_cons_cons lo hi rest,
    encode_decodeWord lo hi, fun _ hj => eq_decodeWord_of_encode hj⟩

/-- Settles O30: each mnemonic of a list has the list's role and opcode, the role decides which
forms are legal, and a legal form has the word of its instruction. -/
theorem assembledStatementsDecode : Obligations.AssembledStatementsDecode := by
  refine ⟨fun p hp n => ?_, fun p hp n => ?_, fun p hp => ?_, fun v => ⟨fun hv => ?_, fun hv => ?_⟩⟩
  · obtain ⟨hrole, hopcode⟩ : p.1.role = .immediate ∧ (p.1.toInstr n).opcode = p.2 := by
      revert p
      simp [Mnemonic.role, Mnemonic.toInstr, Instr.opcode]
    exact ⟨fun hn => assemblesTo_of_wellFormed (o := .hash n)
        (by simp [SourceLine.wellFormed, hrole, hn]) hopcode,
      fun hn => assembleLine_of_not_wellFormed (by simp [SourceLine.wellFormed, hn]),
      assembleLine_of_not_wellFormed (by simp [SourceLine.wellFormed, hrole]),
      assembleLine_of_not_wellFormed (by simp [SourceLine.wellFormed, hrole])⟩
  · obtain ⟨hrole, hopcode⟩ : p.1.role = .wordIndex ∧ (p.1.toInstr n).opcode = p.2 := by
      revert p
      simp [Mnemonic.role, Mnemonic.toInstr, Instr.opcode]
    exact ⟨fun hn => assemblesTo_of_wellFormed (o := .slot n)
        (by simp [SourceLine.wellFormed, hrole, hn]) hopcode,
      fun hn => assembleLine_of_not_wellFormed (by simp [SourceLine.wellFormed, hn]),
      assembleLine_of_not_wellFormed (by simp [SourceLine.wellFormed, hrole]),
      assembleLine_of_not_wellFormed (by simp [SourceLine.wellFormed, hrole])⟩
  · obtain ⟨hrole, hopcode⟩ : p.1.role = .ignored ∧ (p.1.toInstr 0).opcode = p.2 := by
      revert p
      simp [Mnemonic.role, Mnemonic.toInstr, Instr.opcode]
    exact ⟨assemblesTo_of_wellFormed (o := .absent)
        (by simp [SourceLine.wellFormed, hrole]) hopcode,
      fun n => ⟨assembleLine_of_not_wellFormed (by simp [SourceLine.wellFormed, hrole]),
        assembleLine_of_not_wellFormed (by simp [SourceLine.wellFormed, hrole])⟩⟩
  · refine ⟨BitVec.ofNat 16 v, if_pos (decide_eq_true hv), ?_⟩
    rw [BitVec.toNat_ofNat]
    omega
  · exact assembleLine_of_not_wellFormed (decide_eq_false hv.not_ge)

end Sys2Proof.Proofs

/-! ### The statements about signedness, hitRatio and the Cache's accounting (42_arithmetic.md,
20_memory.md R49-R57, R60, 95_test_vectors.md S1-S6) -/

namespace Sys2Proof.Proofs

open Sys2Proof.Machine

/-- Settles O39: `trunc16` sees its argument modulo 65536, where both readings agree. -/
theorem arithmeticIsSignednessFree : Obligations.ArithmeticIsSignednessFree := by
  intro a m
  refine ⟨addWords_eq_signed a m, subWords_eq_signed a m, mulWords_eq_signed a m, ?_, ?_, ?_⟩
  · rw [addWords_eq_signed, signed16_trunc16]
  · rw [subWords_eq_signed, signed16_trunc16]
  · rw [mulWords_eq_signed, signed16_trunc16]

/-- Settles O22: with accesses the quotient is exact and hits are at most all accesses. -/
theorem hitRatioIsAPercentage : Obligations.HitRatioIsAPercentage := by
  refine ⟨hitRatio_zero, fun h m => ?_⟩
  rcases Nat.eq_zero_or_pos (h + m) with h0 | hpos
  · obtain ⟨rfl, rfl⟩ := Nat.add_eq_zero_iff.1 h0
    rw [hitRatio_zero]
    norm_num
  · have hq : (0 : Rat) < (h : Rat) + m := by exact_mod_cast hpos
    have hm : (0 : Rat) ≤ m := Nat.cast_nonneg m
    rw [hitRatio_of_pos hpos]
    refine ⟨div_mul_cancel₀ _ hq.ne', by positivity, ?_⟩
    rw [div_le_iff₀ hq]
    linarith

/-- Settles O12: a byte access in range, one out of range, the raw operations, and what the
instructions without a data access write. -/
theorem cacheAccounting : Obligations.CacheAccounting := by
  refine ⟨fun s t a v ha ht => ?_, fun s a v hT ha => ?_, fun s a v w t ht => ?_,
    fun i s t h hi => (exec_writes h).counters.resolve_right hi⟩
  · have hcounts : CountsAccess s a t := by
      have hr := (inRange_iff a).2 ha
      rcases ht with rfl | rfl
      · exact s.cacheReadByte_countsAccess hr
      · exact s.cacheWriteByte_countsAccess hr v
    obtain ⟨hhits, hmisses⟩ := hcounts
    split
    · next hline =>
      have hhit : s.isHit a = true := (s.isHit_iff a).2 hline
      rw [hhits, hmisses, hhit]
      exact ⟨rfl, rfl⟩
    · next hline =>
      have hhit : ¬ s.isHit a = true := fun h => hline ((s.isHit_iff a).1 h)
      rw [hhits, hmisses, if_neg hhit, if_neg hhit]
      exact ⟨rfl, rfl⟩
  · have hr := (not_inRange_iff a).2 ha
    rw [s.cacheWriteByte_raises hr, hT.cacheReadByte_raises hr]
    exact ⟨rfl, rfl, rfl⟩
  · have hcache : SameCache s t := by
      rcases ht with rfl | rfl | rfl | rfl
      · exact s.rawReadByte_sameCache a
      · exact s.rawWriteByte_sameCache a v
      · exact s.rawReadWord_sameCache a
      · exact s.rawWriteWord_sameCache a w
    exact ⟨hcache.hits, hcache.misses⟩

/-- Settles O14: an invalid line never hits, and after an access the line holds the byte. -/
theorem firstAccessMissesRepeatHits : Obligations.FirstAccessMissesRepeatHits := by
  intro s a v ha
  have hr := (inRange_iff a).2 ha
  refine ⟨fun hinvalid => ?_, ?_, ?_⟩
  · have hmiss := State.isHit_of_invalid hinvalid
    rw [(s.cacheReadByte_countsAccess hr).misses, (s.cacheWriteByte_countsAccess hr v).misses,
      hmiss]
    exact ⟨rfl, rfl⟩
  · obtain ⟨x, t, hread, hhit, hbyte⟩ := s.cacheReadByte_line hr
    exact ⟨x, t, hread, State.cacheReadByte_of_hit hhit hbyte⟩
  · obtain ⟨hhit, hbyte⟩ := (s.setMem (s.mem.write a v)).cacheUpdateByte_line a v
    exact ⟨_, s.cacheWriteByte_inRange hr v, State.cacheReadByte_of_hit hhit hbyte⟩

/-- Settles O15: the state with its Cache and the uncached one keep one memory, access by access. -/
theorem cacheIsTransparentToInterleavings : Obligations.CacheIsTransparentToInterleavings :=
  fun _ l hs => CachedAndUncached.values_eq l ⟨hs.memWf, hs.transparent, rfl⟩

/-- Settles O19: two accesses for a word of data, none for the other instructions. -/
theorem dataAccessesPerInstruction : Obligations.DataAccessesPerInstruction := by
  intro i s t _ hs h ht
  by_cases hi : i.AccessesData
  · rw [if_pos hi, hs.exec_accesses hi h ht]
  · obtain ⟨hhits, hmisses⟩ := (exec_writes h).counters.resolve_right hi
    rw [if_neg hi, State.accesses, hhits, hmisses, Nat.add_zero]

end Sys2Proof.Proofs

/-! ### The instruction at PC (30_encoding.md R87) -/

namespace Sys2Proof

/-- The words from 0xF000 on are those of the illegal row (43_system.md R133). -/
theorem decodeWord_of_ge {w : Word} (hw : 0xF000 ≤ w.toNat) :
    decodeWord w = .invalid (operandField w) := by
  have hopcode : opcodeField w = 0xF := by
    have := w.isLt
    rw [opcodeField_eq]
    omega
  rw [decodeWord, hopcode]
  rfl

/-- The invalid opcode raises with the very word that was fetched. -/
theorem encodeWord_invalid_of_ge {w : Word} (hw : 0xF000 ≤ w.toNat) :
    encodeWord (.invalid (operandField w)) = w := by
  rw [← decodeWord_of_ge hw, encodeWord_decodeWord]

end Sys2Proof

namespace Sys2Proof.Machine

theorem instrAtPc_iff {s : State} {i : Instr} :
    InstrAtPc s i ↔ s.pc + 1 < Config.memSize ∧ decodeWord (s.wordAt s.pc) = i := by
  refine and_congr_right fun _ => ?_
  rw [decode_cons_cons]
  constructor
  · intro h
    cases h
    rfl
  · rintro rfl
    rfl

/-- A step of a running machine runs the instruction at PC, on a state that differs in the hidden
state only. -/
theorem State.Transparent.step_instrAtPc {s : State} (hT : s.Transparent) (hr : s.run = .running)
    {i : Instr} (hi : InstrAtPc s i) :
    ∃ u, step s = exec i u ∧ SameToProgram s u ∧ u.Transparent ∧
      u.accesses = s.accesses + 2 := by
  obtain ⟨hpc, rfl⟩ := instrAtPc_iff.1 hi
  obtain ⟨u, hsame, hu, ⟨-, hstep, hc⟩ | ⟨hpc', -⟩⟩ := hT.step_cases hr
  · exact ⟨u, hstep, hsame, hu, hc⟩
  · exact absurd hpc hpc'

/-- A step whose PC has no word in memory raises with the first address that is not in memory
(30_encoding.md R88). -/
theorem State.Transparent.step_raises {s : State} (hT : s.Transparent) (hr : s.run = .running)
    (hpc : 65534 < s.pc) :
    ∃ t, step s = .next t ∧ Raises .addressOutOfRange (max 65536 s.pc) s t := by
  obtain ⟨u, hsame, -, ⟨hpc', -⟩ | ⟨-, hstep⟩⟩ := hT.step_cases hr
  · exact absurd hpc' ((not_succ_lt_memSize_iff s.pc).2 hpc)
  · exact ⟨_, hstep, SameToProgram.raises (m := s.mem) hsame _ _⟩

/-! ### Jumps and the invalid opcode -/

theorem exec_jmp_eq (n : Nat) (s : State) : exec (.jmp n) s = .next (s.setPc (s.absAddr n)) := rfl

/-- CJMP writes PC in both directions (41_compare_branch.md R111). -/
theorem exec_cjmp_eq (n : Nat) (s : State) :
    exec (.cjmp n) s = .next (s.setPc (if s.flag then s.absAddr n else s.pc + 2)) := by
  rw [apply_ite s.setPc]
  rfl

theorem exec_invalid_eq (n : Nat) (s : State) :
    exec (.invalid n) s = .next (s.takeFault .invalidOpcode (encodeWord (.invalid n)).toNat) := rfl

/-- `t` is `s` with another PC. -/
structure OnlyPcWritten (s t : State) : Prop where
  ac : t.ac = s.ac
  flag : t.flag = s.flag
  memory : SameMemory s t
  cache : SameCache s t
  control : SameControl s t

theorem onlyPcWritten_setPc (s : State) (v : Nat) : OnlyPcWritten s (s.setPc v) :=
  ⟨rfl, rfl, fun _ => rfl, ⟨rfl, rfl, rfl⟩, ⟨rfl, rfl, rfl, rfl, rfl⟩⟩

/-- Transparency is a property of LINE and of memory alone. -/
theorem State.Transparent.of_lines {s t : State} (hT : s.Transparent) (hl : t.lines = s.lines)
    (hm : SameMemory s t) : t.Transparent := by
  intro i
  unfold State.LineTransparent
  rw [hl]
  intro hi
  exact ⟨(hT i hi).1, fun j => ((hT i hi).2 j).trans (hm _).symm⟩

/-- A jump to where no word lies in memory faults at the next fetch. -/
theorem OnlyPcWritten.step_raises {s t : State} (h : OnlyPcWritten s t) (hr : s.run = .running)
    (hT : s.Transparent) (hpc : 65534 < t.pc) :
    ∃ u, step t = .next u ∧ Raises .addressOutOfRange (max 65536 t.pc) t u :=
  (hT.of_lines h.cache.lines h.memory).step_raises (h.control.run.trans hr) hpc

/-- A jump to PC leaves the state that it started from, the hidden state apart. -/
theorem SameToProgram.setPc_self {s u : State} (h : SameToProgram s u) {v : Nat} (hv : v = s.pc) :
    SameToProgram s (u.setPc v) :=
  ⟨hv, h.ac, h.flag, h.mem, { h.control with }⟩

/-- The instruction at PC is part of what a program can see. -/
theorem SameToProgram.instrAtPc {s t : State} (h : SameToProgram s t) {i : Instr}
    (hi : InstrAtPc s i) : InstrAtPc t i := by
  rw [instrAtPc_iff] at hi ⊢
  rwa [h.pc, h.wordAt]

/-! ### Runs (60_exceptions.md R157) -/

/-- A property under which the machine steps, and which the step keeps, runs for every length. -/
theorem StepsTo.of_progress {P : State → Prop}
    (hstep : ∀ s, P s → ∃ t, step s = .next t ∧ P t) (n : Nat) {s : State} (hs : P s) :
    ∃ t, StepsTo n s t ∧ P t := by
  induction n generalizing s with
  | zero => exact ⟨s, rfl, hs⟩
  | succ n ih =>
    obtain ⟨u, hu, hPu⟩ := hstep s hs
    obtain ⟨t, hrun, ht⟩ := ih hPu
    exact ⟨t, ⟨u, hu, hrun⟩, ht⟩

/-- An instruction at PC that jumps to PC, for all that a program can see, runs forever. -/
theorem runsForever_of_jump_to_pc {s : State} (hT : s.Transparent) (hr : s.run = .running)
    {i : Instr} (hi : InstrAtPc s i) {n : Nat} (haddr : s.absAddr n = s.pc)
    (hjump : ∀ u, SameToProgram s u → exec i u = .next (u.setPc (u.absAddr n))) :
    RunsForever s := by
  intro k
  obtain ⟨t, hrun, hst, -⟩ := StepsTo.of_progress (P := fun t => SameToProgram s t ∧ t.Transparent)
    (fun t ⟨hst, ht⟩ => by
      obtain ⟨u, hstep, htu, hu, -⟩ :=
        ht.step_instrAtPc (hst.control.run.trans hr) (hst.instrAtPc hi)
      have hsu := hst.trans htu
      exact ⟨_, hstep.trans (hjump u hsu), hsu.setPc_self ((hsu.absAddr n).trans haddr), hu⟩)
    k ⟨SameToProgram.rfl' s, hT⟩
  exact ⟨t, hrun, hst.control.run.trans hr⟩

theorem StepsTo.eq_of_not_running {n : Nat} {s t : State} (hrun : StepsTo n s t)
    (hs : s.run ≠ .running) : t = s := by
  cases n with
  | zero => exact hrun.symm
  | succ n =>
    obtain ⟨u, hstep, -⟩ := hrun
    exact absurd ((step_next_iff s).1 ⟨u, hstep⟩) hs

/-- A run of a given length ends in one state. -/
theorem StepsTo.unique {n : Nat} {s t u : State} (ht : StepsTo n s t) (hu : StepsTo n s u) :
    t = u := by
  induction n generalizing s with
  | zero => exact ht.symm.trans hu
  | succ n ih =>
    obtain ⟨v, hstep, ht⟩ := ht
    obtain ⟨v', hstep', hu⟩ := hu
    cases hstep.symm.trans hstep'
    exact ih ht hu

/-- A run has one end: two states on it that are not running are the same. -/
theorem StepsTo.end_unique {m n : Nat} {s t u : State} (ht : StepsTo m s t)
    (hu : StepsTo n s u) (htr : t.run ≠ .running) (hur : u.run ≠ .running) : t = u := by
  induction m generalizing s n with
  | zero =>
    cases ht
    exact (hu.eq_of_not_running htr).symm
  | succ m ih =>
    cases n with
    | zero =>
      cases hu
      exact ht.eq_of_not_running hur
    | succ n =>
      obtain ⟨v, hstep, ht⟩ := ht
      obtain ⟨v', hstep', hu⟩ := hu
      cases hstep.symm.trans hstep'
      exact ih ht hu

/-- For every length, a running machine runs so long or reaches an end of its run before. -/
theorem stepsTo_or_ends (n : Nat) {s : State} (hs : s.run = .running) :
    (∃ t, StepsTo n s t ∧ t.run = .running) ∨ ∃ t, Runs s t ∧ t.run ≠ .running := by
  induction n generalizing s with
  | zero => exact .inl ⟨s, rfl, hs⟩
  | succ n ih =>
    obtain ⟨u, hstep⟩ := (step_next_iff s).2 hs
    by_cases hu : u.run = .running
    · rcases ih hu with ⟨t, hrun, ht⟩ | ⟨t, ⟨k, hrun⟩, ht⟩
      · exact .inl ⟨t, ⟨u, hstep, hrun⟩, ht⟩
      · exact .inr ⟨t, ⟨k + 1, u, hstep, hrun⟩, ht⟩
    · exact .inr ⟨u, ⟨1, u, hstep, rfl⟩, hu⟩

/-- A run that goes on forever meets running states only. -/
theorem RunsForever.running {s t : State} (hs : RunsForever s) (ht : Runs s t) :
    t.run = .running := by
  obtain ⟨n, hrun⟩ := ht
  obtain ⟨u, hrun', hu⟩ := hs n
  rw [hrun.unique hrun']
  exact hu

/-- An end of a run is a state of it that is not running. -/
theorem runs_of_ends {s t : State} (h : EndsHalted s t ∨ EndsFaulted s t) :
    Runs s t ∧ t.run ≠ .running := by
  rcases h with ⟨hrun, ht⟩ | ⟨hrun, ht⟩ <;> exact ⟨hrun, by simp [ht]⟩

/-! ### Why a step faults (60_exceptions.md R141, R142) -/

theorem State.Transparent.withMemOperand_faulted {s t : State} (hT : s.Transparent)
    (hr : s.run = .running) {n : Nat} {write : Word → State → State}
    (h : s.withMemOperand n write = .next t) (hw : ∀ m u, (write m u).run = u.run)
    (ht : t.run = .faulted) : 65534 < s.absAddr n := by
  obtain ⟨u, hsame, -, ⟨-, hexec, -⟩ | ⟨ha, -⟩⟩ := hT.withMemOperand_cases n write
  · cases h.symm.trans hexec
    simp [hw, hsame.control.run, hr] at ht
  · exact (not_succ_lt_memSize_iff _).1 ha

theorem State.Legal.exec_store_faulted {s t : State} (hs : s.Legal) (hr : s.run = .running)
    {n : Nat} (h : exec (.store n) s = .next t) (ht : t.run = .faulted) :
    65534 < s.absAddr n := by
  obtain ⟨u, -, hrun, ⟨-, hexec, -⟩ | ⟨ha, -⟩⟩ := hs.exec_store_cases n
  · cases h.symm.trans hexec
    simp [hrun, hr] at ht
  · exact (not_succ_lt_memSize_iff _).1 ha

/-- A running machine's instruction faults only when it is the illegal one or its word of data is
not inside memory. -/
theorem State.Legal.exec_fault_causes {s t : State} (hs : s.Legal) (hr : s.run = .running)
    {i : Instr} (h : exec i s = .next t) (ht : t.run = .faulted) :
    i.opcode = 0xF ∨ (i.AccessesData ∧ 65534 < s.absAddr i.operand) := by
  cases i with
  | invalid n => exact .inl rfl
  | loadm n | cmpm n | addm n | subm n | mulm n =>
    exact .inr ⟨by simp [Instr.opcode],
      hs.transparent.withMemOperand_faulted hr h (fun _ _ => rfl) ht⟩
  | store n => exact .inr ⟨by simp [Instr.opcode], hs.exec_store_faulted hr h ht⟩
  | start n | load n | jmp n | add n | sub n | mul n | disp n | halt n =>
    cases h
    simp [hr] at ht
  | cjmp n =>
    cases h
    split at ht <;> simp [hr] at ht

/-! ### A word written, read as a word -/

theorem State.wordAt_of_read {s : State} {a : Nat} {w : Word} (hlo : s.mem.read a = lowByte w)
    (hhi : s.mem.read (a + 1) = highByte w) : s.wordAt a = w := by
  rw [State.wordAt, hlo, hhi, wordOfBytes_low_high]

/-- A word write, byte by byte. -/
theorem State.wordAt_write {s u : State} (hm : s.mem.wf = true) {a : Nat}
    (ha : a + 1 < Config.memSize) {w : Word}
    (hu : u.mem = (s.mem.write a (lowByte w)).write (a + 1) (highByte w)) : u.wordAt a = w := by
  have hread := Memory.read_write_word hm (Nat.lt_of_succ_lt ha) (lowByte w) (highByte w)
  refine State.wordAt_of_read ?_ ?_
  · rw [hu, hread, if_neg (by omega), if_pos rfl]
  · rw [hu, hread, if_pos rfl]

theorem State.rawReadWord_inRange (s : State) {a : Nat} (ha : a + 1 < Config.memSize) :
    s.rawReadWord a = .done (s.wordAt a) s := by
  unfold State.rawReadWord
  rw [if_neg (not_not_intro (Nat.lt_of_succ_lt ha)), if_neg (not_not_intro ha)]
  rfl

theorem State.rawReadWord_last (s : State) :
    s.rawReadWord 65535 = .raised .addressOutOfRange 65536 s := rfl

theorem State.rawReadWord_above (s : State) {a : Nat} (ha : 65535 < a) :
    s.rawReadWord a = .raised .addressOutOfRange a s :=
  if_pos ((not_inRange_iff a).2 ha)

/-! ### Construction (70_reset_and_hazards.md R170) -/

theorem State.construct_lines (la ip : Nat) (m : Memory) (i : Fin Config.numLines) :
    (State.construct la ip m).lines[i] = CacheLine.empty := by
  simp [State.construct]

/-- A Cache without valid lines is transparent to any memory. -/
theorem State.transparent_of_invalid {s : State}
    (h : ∀ i : Fin Config.numLines, (s.lines[i]).valid = false) : s.Transparent := by
  intro i hi
  rw [h i] at hi
  cases hi

theorem State.construct_invalid (la ip : Nat) (m : Memory) (i : Fin Config.numLines) :
    ((State.construct la ip m).lines[i]).valid = false := by
  rw [State.construct_lines]
  rfl

theorem State.construct_legal (la ip : Nat) {m : Memory} (hm : m.wf = true) :
    (State.construct la ip m).Legal where
  memWf := hm
  transparent := State.transparent_of_invalid (State.construct_invalid la ip m)
  faultLegal := rfl
  outSigned _ hv := absurd hv List.not_mem_nil

end Sys2Proof.Machine

/-! ### The statements about construction, raw words and the execution cycle
(70_reset_and_hazards.md R170, 20_memory.md R44, R45, 30_encoding.md R85-R88) -/

namespace Sys2Proof.Proofs

open Sys2Proof.Machine

/-- Settles O1: construction field by field. -/
theorem constructionSetsEveryField : Obligations.ConstructionSetsEveryField :=
  ⟨fun la ip m => ⟨rfl, rfl, rfl, rfl, rfl, rfl, rfl, State.construct_lines la ip m, rfl, rfl, rfl,
    rfl⟩, rfl⟩

/-- Settles O2: no line is valid after construction. -/
theorem constructedStatesAreLegal : Obligations.ConstructedStatesAreLegal :=
  ⟨fun la ip _ hm => State.construct_legal la ip hm, State.construct_legal _ _ State.reset_mem_wf⟩

/-- Settles O10: a raw word write inside memory, at its last byte, and above it. -/
theorem rawWordWriteIsAllOrNothing : Obligations.RawWordWriteIsAllOrNothing := by
  intro s a w hm
  have hsize : Config.memSize = 65536 := rfl
  rcases s.rawWriteWord_cases a w with ⟨ha, h⟩ | ⟨rfl, h⟩ | ⟨ha, h⟩
  · refine ⟨fun _ => ⟨_, h, ?_, fun b hb hb' => ?_⟩, fun _ => by omega, fun _ => by omega⟩
    · rw [State.rawReadWord_inRange _ ha, State.wordAt_write hm ha rfl]
    · rw [State.setMem_mem, Memory.read_write_ne hb', Memory.read_write_ne hb]
  · exact ⟨fun _ => by omega, fun _ => ⟨h, s.rawReadWord_last⟩, fun _ => by omega⟩
  · exact ⟨fun _ => by omega, fun _ => by omega, fun _ => ⟨h, s.rawReadWord_above ha⟩⟩

/-- Settles O26: the decoder computes each row. -/
theorem sampleWordsDecode : Obligations.SampleWordsDecode := by
  unfold Obligations.SampleWordsDecode
  decide

/-- Settles O27: the fetch gives the word at PC and changes the hidden state only. -/
theorem stepRunsTheDecodedInstruction : Obligations.StepRunsTheDecodedInstruction :=
  fun _ _ hr hT hi => hT.step_instrAtPc hr hi

/-- Settles O28: the fetch is a word read at PC, above memory or at its last byte. -/
theorem fetchFaults : Obligations.FetchFaults := by
  intro s hr hT
  constructor
  · intro hpc
    exact ⟨_, step_of_fetch_raised hr (hT.cacheReadWord_above hpc),
      SameToProgram.raises (m := s.mem) (SameToProgram.rfl' s).countMissOnFault _ _,
      fun _ => rfl, rfl, rfl, rfl⟩
  · intro hpc
    obtain ⟨u, hread, hs, -, hc, hhit⟩ := hT.cacheReadWord_last
    have hfetch : s.fetch = .raised .addressOutOfRange 65536 u.countMissOnFault := by
      rw [State.fetch, hpc, hread]
    have hcounted : u.hits + (u.misses + missesOnFault) = s.accesses + 1 + missesOnFault := by
      rw [← hc, Nat.add_assoc]
    exact ⟨_, step_of_fetch_raised hr hfetch,
      SameToProgram.raises (m := s.mem) hs.countMissOnFault _ _,
      fun a => congrArg (Memory.read · a) hs.mem, hhit, hcounted⟩

/-- Settles O21: the STORE's state has a transparent Cache, so the next fetch gives memory's word,
which is AC's. -/
theorem storeIsSeenByTheNextFetch : Obligations.StoreIsSeenByTheNextFetch := by
  intro n s hs hr haddr hpc
  rw [show s.pc + 3 = s.absAddr n + 1 by omega] at hpc
  obtain ⟨u, hexec, hsame, hu, -⟩ := hs.exec_store hpc
  have hT : u.advance.Transparent := hu
  have hupc : u.advance.pc = s.absAddr n := by
    rw [State.advance_pc, hsame.pc, haddr]
    rfl
  have hword : u.advance.wordAt u.advance.pc = s.ac := by
    rw [hupc]
    exact State.wordAt_write hs.memWf hpc hsame.mem
  have hi : InstrAtPc u.advance (decodeWord s.ac) := by
    rw [instrAtPc_iff, hword, hupc]
    exact ⟨hpc, rfl⟩
  obtain ⟨v, hstep, hsame', -, -⟩ := hT.step_instrAtPc (hsame.control.run.trans hr) hi
  exact ⟨_, v, hexec, hstep, hsame'⟩

end Sys2Proof.Proofs

/-! ### The statements about jumps, DISP, HALT and the invalid opcode (41_compare_branch.md,
43_system.md) -/

namespace Sys2Proof.Proofs

open Sys2Proof.Machine

/-- Settles O35: CJMP writes PC only, and a PC without a word in memory faults at the fetch. -/
theorem cjmpResult : Obligations.CjmpResult := by
  intro n
  refine ⟨decodeWord_ofNat (o := 5) (by decide), fun s => ⟨_, exec_cjmp_eq n s, ?_⟩⟩
  have honly := onlyPcWritten_setPc s (if s.flag then s.absAddr n else s.pc + 2)
  exact ⟨rfl, honly.ac, honly.flag, honly.memory, honly.cache, honly.control,
    fun hr hT hpc => honly.step_raises hr hT hpc⟩

/-- Settles O36: JMP writes PC only, and a target without a word in memory faults at the fetch. -/
theorem jmpResult : Obligations.JmpResult := by
  intro n
  refine ⟨decodeWord_ofNat (o := 6) (by decide), fun s => ⟨_, exec_jmp_eq n s, ?_⟩⟩
  have honly := onlyPcWritten_setPc s (s.absAddr n)
  exact ⟨rfl, honly.ac, honly.flag, honly.memory, honly.cache, honly.control,
    fun hr hT hpc => honly.step_raises hr hT hpc⟩

/-- Settles O41: DISP appends the two's complement reading of AC. -/
theorem dispResult : Obligations.DispResult := by
  intro n s hn
  refine ⟨decodeWord_ofNat (o := 13) (by decide) hn, _, rfl, ?_, rfl, rfl, rfl, fun _ => rfl,
    ⟨rfl, rfl, rfl⟩, rfl, rfl, rfl, rfl⟩
  rw [State.advance_out, State.emit_out, signed16_eq_toInt]

/-- Settles O42: HALT writes RUN only, and a halted machine has no step. -/
theorem haltResult : Obligations.HaltResult := by
  intro n s hn
  exact ⟨decodeWord_ofNat (o := 14) (by decide) hn, s.halt, rfl, rfl, rfl, rfl, rfl, fun _ => rfl,
    ⟨rfl, rfl, rfl⟩, rfl, rfl, rfl, rfl, step_of_halted rfl⟩

/-- Settles O43: the invalid opcode takes a fault with its own word. -/
theorem invalidOpcodeResult : Obligations.InvalidOpcodeResult := by
  intro n s hn
  have hraises :=
    SameToProgram.raises (m := s.mem) (SameToProgram.rfl' s) .invalidOpcode (0xF000 + n)
  refine ⟨decodeWord_ofNat (o := 15) (by decide) hn, s.takeFault .invalidOpcode (0xF000 + n), ?_,
    hraises, fun _ => rfl, ⟨rfl, rfl, rfl⟩, step_of_faulted rfl⟩
  rw [exec_invalid_eq, encodeWord_invalid_toNat hn]

/-- Settles O44: such a word is that of the illegal row, whose fault ends the run. -/
theorem invalidWordEndsTheRun : Obligations.InvalidWordEndsTheRun := by
  intro s hs hr hpc hw
  obtain ⟨u, hstep, hsame, -, -⟩ :=
    hs.transparent.step_instrAtPc hr (instrAtPc_iff.2 ⟨hpc, decodeWord_of_ge hw⟩)
  refine ⟨u.takeFault .invalidOpcode (s.wordAt s.pc).toNat, ?_,
    SameToProgram.raises (m := s.mem) hsame _ _, fun a => congrArg (Memory.read · a) hsame.mem,
    fun n v hrun => hrun.eq_of_not_running (by simp)⟩
  rw [hstep, exec_invalid_eq, encodeWord_invalid_of_ge hw]

end Sys2Proof.Proofs

/-! ### The statements about faults and runs (60_exceptions.md R140-R157) -/

namespace Sys2Proof.Proofs

open Sys2Proof.Machine

/-- Settles O46: the fetch raised, or the instruction at PC did. -/
theorem faultsHaveTheListedCauses : Obligations.FaultsHaveTheListedCauses := by
  intro s t hs h ht
  have hr := (step_next_iff s).1 ⟨t, h⟩
  obtain ⟨u, hsame, hu, ⟨hpc, hstep, -⟩ | ⟨hpc, -⟩⟩ := hs.transparent.step_cases hr
  · refine .inr ⟨_, instrAtPc_iff.2 ⟨hpc, rfl⟩, ?_⟩
    rw [← hsame.absAddr]
    exact (hs.of_sameToProgram hsame hu).exec_fault_causes (hsame.control.run.trans hr)
      (hstep.symm.trans h) ht
  · exact .inl ((not_succ_lt_memSize_iff s.pc).1 hpc)

/-- Settles O47: the jump leads back to the state it started from, the hidden state apart. -/
theorem selfJumpRunsForever : Obligations.SelfJumpRunsForever := by
  rintro n s hs hr (hi | ⟨hi, hflag⟩) haddr
  · exact runsForever_of_jump_to_pc hs.transparent hr hi haddr fun u _ => exec_jmp_eq n u
  · refine runsForever_of_jump_to_pc hs.transparent hr hi haddr fun u hsu => ?_
    rw [exec_cjmp_eq, if_pos (hsu.flag.trans hflag)]

/-- Settles O48: the ends of a run are its states that are not running, and it has at most one. -/
theorem aRunHaltsFaultsOrGoesOnForever : Obligations.ARunHaltsFaultsOrGoesOnForever := by
  intro s hs
  refine ⟨?_, fun t u ht hu => ?_, fun hforever => ⟨fun t ht hfaulted => ?_, fun t ht => ?_⟩⟩
  · by_cases hend : ∃ t, Runs s t ∧ t.run ≠ .running
    · obtain ⟨t, hrun, ht⟩ := hend
      cases htr : t.run with
      | running => exact absurd htr ht
      | halted => exact .inl ⟨t, hrun, htr⟩
      | faulted => exact .inr (.inl ⟨t, hrun, htr⟩)
    · exact .inr (.inr fun n => (stepsTo_or_ends n hs).resolve_right hend)
  · obtain ⟨⟨m, hm⟩, htr⟩ := runs_of_ends ht
    obtain ⟨⟨n, hn⟩, hur⟩ := runs_of_ends hu
    exact hm.end_unique hn htr hur
  · exact absurd (hforever.running ht) (by simp [hfaulted])
  · exact (runs_of_ends (.inl ht)).2 (hforever.running ht.1)

end Sys2Proof.Proofs

/-! ### A word placed from outside -/

namespace Sys2Proof.Machine

/-- A byte write to an address whose line does not hold its block changes no byte that a valid line
holds. -/
theorem State.Transparent.setMem_of_miss {s : State} (hT : s.Transparent) {a : Nat}
    (hmiss : s.isHit a = false) (v : Byte) : (s.setMem (s.mem.write a v)).Transparent := by
  intro i hi
  obtain ⟨hrange, hdata⟩ := hT i hi
  refine ⟨hrange, fun j => (hdata j).trans (Memory.read_write_ne (fun hj => ?_) v _).symm⟩
  obtain ⟨hindex, htag, -⟩ := blockIndex_of_block hj
  subst hindex
  have hhit : s.isHit a = true := (s.isHit_iff a).2 ⟨hi, htag.symm⟩
  simp [hmiss] at hhit

/-- Placing a byte keeps transparency: a line that holds the address follows. -/
theorem State.Transparent.placeByte {s : State} (hT : s.Transparent) (hm : s.mem.wf = true)
    (a : Nat) (v : Byte) : (s.placeByte a v).Transparent := by
  unfold State.placeByte
  split
  · exact hT
  · next hr =>
    split
    · next hhit =>
      have hwrite := hT.write hm (not_not.1 hr) v
      unfold State.cacheUpdateByte at hwrite
      rw [if_pos (show (s.setMem (s.mem.write a v)).isHit a = true from hhit)] at hwrite
      exact hwrite.of_lines rfl fun _ => rfl
    · next hmiss => exact hT.setMem_of_miss (by simpa using hmiss) v

theorem State.Transparent.placeWord {s : State} (hT : s.Transparent) (hm : s.mem.wf = true)
    (a : Nat) (w : Word) : (s.placeWord a w).Transparent :=
  (hT.placeByte hm a _).placeByte (State.placeByte_wf hm a _) (a + 1) _

/-- A word placed inside memory is there, and nothing else that a program can see changes. -/
theorem State.placeWord_frame (s : State) {a : Nat} (ha : a + 1 < Config.memSize) (w : Word) :
    SameToProgram (s.setMem ((s.mem.write a (lowByte w)).write (a + 1) (highByte w)))
      (s.placeWord a w) := by
  have hlo := (s.placeByte_frame a (lowByte w)).1 (Nat.lt_of_succ_lt ha)
  have hhi := ((s.placeByte a (lowByte w)).placeByte_frame (a + 1) (highByte w)).1 ha
  rw [hlo.mem] at hhi
  exact (hlo.setMem _).trans hhi

theorem State.placeWord_accesses (s : State) (a : Nat) (w : Word) :
    (s.placeWord a w).accesses = s.accesses :=
  ((s.placeByte a _).placeByte_frame (a + 1) _).2.2.trans (s.placeByte_frame a _).2.2

/-- Placing writes no field but MEM and LINE. -/
theorem State.placeByte_restore (s : State) (a : Nat) (v : Byte) (m : Memory)
    (l : Vector CacheLine Config.numLines) :
    { s.placeByte a v with mem := m, lines := l } = { s with mem := m, lines := l } := by
  unfold State.placeByte
  split
  · rfl
  · split <;> rfl

theorem State.withFetchWord_eq (s : State) (w : Word) :
    s.withFetchWord 16 w.toNat = s.placeWord s.pc w := by
  have hw : BitVec.ofNat 16 (w.toNat % 2 ^ 16) = w := by
    apply BitVec.eq_of_toNat_eq
    rw [BitVec.toNat_ofNat, Nat.mod_mod, Nat.mod_eq_of_lt w.isLt]
  rw [State.withFetchWord, hw]

/-! ### Words written one after another to memory -/

/-- Memory with the word `w` written at `a`, low byte first. -/
def Memory.writeWord (m : Memory) (a : Nat) (w : Word) : Memory :=
  (m.write a (lowByte w)).write (a + 1) (highByte w)

/-- Memory with the words written as consecutive words from `a` on. -/
def Memory.writeWords : Memory → Nat → List Word → Memory
  | m, _, [] => m
  | m, a, w :: ws => Memory.writeWords (m.writeWord a w) (a + 2) ws

/-- Every word lies inside memory when the words are laid out from `a` on. -/
def FitsFrom (a : Nat) (ws : List Word) : Prop :=
  ∀ i < ws.length, a + 2 * i + 1 < Config.memSize

theorem FitsFrom.head {a : Nat} {w : Word} {ws : List Word} (h : FitsFrom a (w :: ws)) :
    a + 1 < Config.memSize :=
  h 0 (Nat.succ_pos _)

theorem FitsFrom.tail {a : Nat} {w : Word} {ws : List Word} (h : FitsFrom a (w :: ws)) :
    FitsFrom (a + 2) ws := by
  intro i hi
  have := h (i + 1) (Nat.succ_lt_succ hi)
  rwa [show a + 2 + 2 * i = a + 2 * (i + 1) by omega]

theorem fitsFrom_of_le {a : Nat} {ws : List Word} (h : a + 2 * ws.length ≤ Config.memSize) :
    FitsFrom a ws := fun i hi => by omega

theorem Memory.wf_writeWord {m : Memory} (h : m.wf = true) {a : Nat}
    (ha : a + 1 < Config.memSize) (w : Word) : (m.writeWord a w).wf = true :=
  Memory.wf_write (Memory.wf_write h (Nat.lt_of_succ_lt ha) _) ha _

theorem Memory.wf_writeWords {ws : List Word} :
    ∀ {m : Memory} {a : Nat}, m.wf = true → FitsFrom a ws → (m.writeWords a ws).wf = true := by
  induction ws with
  | nil => exact fun h _ => h
  | cons w ws ih => exact fun h hfit => ih (Memory.wf_writeWord h hfit.head w) hfit.tail

/-- The words change no byte outside the addresses they take. -/
theorem Memory.read_writeWords_outside {ws : List Word} {c : Nat} :
    ∀ {m : Memory} {a : Nat}, c < a ∨ a + 2 * ws.length ≤ c →
      (m.writeWords a ws).read c = m.read c := by
  induction ws with
  | nil => exact fun _ => rfl
  | cons w ws ih =>
    intro m a hc
    rw [List.length_cons] at hc
    rw [Memory.writeWords, ih (by omega), Memory.writeWord, Memory.read_write_ne (by omega),
      Memory.read_write_ne (by omega)]

/-- Both bytes of every word are at its place. -/
theorem Memory.read_writeWords {ws : List Word} :
    ∀ {m : Memory} {a : Nat}, m.wf = true → FitsFrom a ws → ∀ (i : Nat) (hi : i < ws.length),
      (m.writeWords a ws).read (a + 2 * i) = lowByte ws[i] ∧
        (m.writeWords a ws).read (a + 2 * i + 1) = highByte ws[i] := by
  induction ws with
  | nil => exact fun _ _ i hi => absurd hi (Nat.not_lt_zero i)
  | cons w ws ih =>
    intro m a h hfit i hi
    cases i with
    | zero =>
      have hread := Memory.read_write_word h (Nat.lt_of_succ_lt hfit.head) (lowByte w) (highByte w)
      rw [Nat.mul_zero, Nat.add_zero, Memory.writeWords, Memory.read_writeWords_outside (by omega),
        Memory.read_writeWords_outside (by omega), Memory.writeWord, hread, hread,
        if_neg (by omega), if_pos rfl, if_pos rfl]
      exact ⟨rfl, rfl⟩
    | succ i =>
      have hrest := ih (Memory.wf_writeWord h hfit.head w) hfit.tail i (Nat.lt_of_succ_lt_succ hi)
      rwa [show a + 2 + 2 * i = a + 2 * (i + 1) by omega] at hrest

/-! ### The program load (70_reset_and_hazards.md R171, R172) -/

/-- A part of the load, through the Cache when `b`, leads from `s` to `t`, whose memory is `m`. -/
structure LoadsTo (b : Bool) (m : Memory) (s t : State) : Prop where
  same : SameToProgram (s.setMem m) t
  cache : b = false → SameCache s t
  transparent : b = true → s.Transparent → t.Transparent

theorem LoadsTo.rfl' (b : Bool) (s : State) : LoadsTo b s.mem s s :=
  ⟨SameToProgram.rfl' s, fun _ => SameCache.rfl' s, fun _ hT => hT⟩

theorem LoadsTo.trans {b : Bool} {m m' : Memory} {s t u : State} (h : LoadsTo b m s t)
    (h' : LoadsTo b m' t u) : LoadsTo b m' s u where
  same := (h.same.setMem m').trans h'.same
  cache hb :=
    ⟨(h'.cache hb).lines.trans (h.cache hb).lines, (h'.cache hb).hits.trans (h.cache hb).hits,
      (h'.cache hb).misses.trans (h.cache hb).misses⟩
  transparent hb hT := h'.transparent hb (h.transparent hb hT)

theorem SameCache.takeFault {s t : State} (h : SameCache s t) (k : FaultKind) (n : Nat) :
    SameCache s (t.takeFault k n) :=
  ⟨h.lines, h.hits, h.misses⟩

/-- Through the Cache, or straight to Memory while no line is valid, the load keeps legality. -/
theorem LoadsTo.legal {b : Bool} {m : Memory} {s t : State} (h : LoadsTo b m s t) (hs : s.Legal)
    (hm : m.wf = true)
    (hb : b = true ∨ ∀ i : Fin Config.numLines, (s.lines[i]).valid = false) : t.Legal := by
  have htm : t.mem.wf = true := by
    rw [h.same.mem]
    exact hm
  refine hs.of_setMem h.same htm ?_
  cases b with
  | true => exact h.transparent rfl hs.transparent
  | false =>
    refine State.transparent_of_invalid fun i => ?_
    rw [(h.cache rfl).lines]
    exact hb.resolve_left Bool.false_ne_true i

/-- One word of the load. -/
def State.loadWord (b : Bool) (s : State) (a : Nat) (w : Word) : Access Unit :=
  if b then s.cacheWriteWord a w else s.rawWriteWord a w

theorem State.loadWords_cons' (b : Bool) (a : Nat) (w : Word) (ws : List Word) (s : State) :
    State.loadWords b a (w :: ws) s =
      (s.loadWord b a w).bind fun _ s' => State.loadWords b (a + 2) ws s' :=
  State.loadWords_cons b a w ws s

theorem State.loadWord_inRange (b : Bool) {s : State} (hm : s.mem.wf = true) {a : Nat}
    (ha : a + 1 < Config.memSize) (w : Word) :
    ∃ t, s.loadWord b a w = .done () t ∧ LoadsTo b (s.mem.writeWord a w) s t := by
  have hsize : Config.memSize = 65536 := rfl
  cases b with
  | true =>
    rcases s.cacheWriteWord_cases a w with ⟨-, t, hwrite, hsame⟩ | ⟨ha', -⟩ | ⟨ha', -⟩
    · refine ⟨t, hwrite, hsame, Bool.noConfusion, fun _ hT => ?_⟩
      obtain ⟨t', hwrite', -, hT', -⟩ := hT.cacheWriteWord hm ha w
      cases hwrite.symm.trans hwrite'
      exact hT'
    all_goals omega
  | false =>
    rcases s.rawWriteWord_cases a w with ⟨-, hwrite⟩ | ⟨ha', -⟩ | ⟨ha', -⟩
    · exact ⟨_, hwrite, SameToProgram.rfl' _, fun _ => ⟨rfl, rfl, rfl⟩, Bool.noConfusion⟩
    all_goals omega

/-- What a load that raises at `a` leaves of memory: through the Cache the low byte of a word at
the last address is written, straight to Memory nothing is (92_eei_decisions.md D5, D6). -/
def Memory.writeLast (b : Bool) (m : Memory) (a : Nat) (w : Word) : Memory :=
  if b = true ∧ a = 65535 then m.write 65535 (lowByte w) else m

theorem Memory.wf_writeLast (b : Bool) {m : Memory} (h : m.wf = true) (a : Nat) (w : Word) :
    (m.writeLast b a w).wf = true := by
  unfold Memory.writeLast
  split
  · exact Memory.wf_write h (by decide) _
  · exact h

theorem Memory.read_writeLast_ne (b : Bool) (m : Memory) (a : Nat) (w : Word) {c : Nat}
    (hc : c ≠ 65535 ∨ a ≠ 65535) : (m.writeLast b a w).read c = m.read c := by
  unfold Memory.writeLast
  split
  · next h => exact Memory.read_write_ne (hc.resolve_right (not_not_intro h.2)) _ m
  · rfl

theorem Memory.read_writeLast {m : Memory} (h : m.wf = true) (b : Bool) (w : Word) :
    (m.writeLast b 65535 w).read 65535 = if b = true then lowByte w else m.read 65535 := by
  cases b with
  | true => exact Memory.read_write_same h _ _
  | false => rfl

/-- A word of the load that does not lie inside memory raises at the first of its two addresses
that does not. -/
theorem State.loadWord_raises (b : Bool) {s : State} (hm : s.mem.wf = true) {a : Nat}
    (ha : ¬ a + 1 < Config.memSize) (w : Word) :
    ∃ t, s.loadWord b a w = .raised .addressOutOfRange (max 65536 a) t ∧
      LoadsTo b (s.mem.writeLast b a w) s t := by
  rcases Nat.eq_or_lt_of_le ((not_succ_lt_memSize_iff a).1 ha) with rfl | habove
  · cases b with
    | true =>
      rcases s.cacheWriteWord_cases 65535 w with ⟨ha', -⟩ | ⟨-, t, hwrite, hsame⟩ | ⟨ha', -⟩
      · exact absurd ha' ha
      · refine ⟨t, hwrite, hsame, Bool.noConfusion, fun _ hT => ?_⟩
        obtain ⟨t', hwrite', -, hT', -⟩ := hT.cacheWriteWord_last hm w
        cases hwrite.symm.trans hwrite'
        exact hT'
      · exact absurd ha' (Nat.lt_irrefl _)
    | false => exact ⟨s, rfl, LoadsTo.rfl' false s⟩
  · have hmem : s.mem.writeLast b a w = s.mem := if_neg fun h => habove.ne' h.2
    rw [max_eq_right (show 65536 ≤ a from habove), hmem]
    cases b with
    | true => exact ⟨s, s.cacheWriteWord_above habove w, LoadsTo.rfl' true s⟩
    | false =>
      exact ⟨s, if_pos ((not_inRange_iff a).2 habove), LoadsTo.rfl' false s⟩

/-- A program that fits is written word for word. -/
theorem State.loadWords_fits (b : Bool) {ws : List Word} :
    ∀ {a : Nat} {s : State}, s.mem.wf = true → FitsFrom a ws →
      ∃ t, State.loadWords b a ws s = .done () t ∧ LoadsTo b (s.mem.writeWords a ws) s t := by
  induction ws with
  | nil => exact fun _ _ => ⟨_, rfl, LoadsTo.rfl' b _⟩
  | cons w ws ih =>
    intro a s hm hfit
    obtain ⟨u, hword, hu⟩ := State.loadWord_inRange b hm hfit.head w
    have hum : u.mem = s.mem.writeWord a w := hu.same.mem
    obtain ⟨t, hwords, ht⟩ :=
      ih (s := u) (by rw [hum]; exact Memory.wf_writeWord hm hfit.head w) hfit.tail
    rw [hum] at ht
    refine ⟨t, ?_, hu.trans ht⟩
    rw [State.loadWords_cons', hword, Access.done_bind, hwords]

theorem State.loadWords_append (b : Bool) {xs ys : List Word} :
    ∀ {a : Nat} {s t : State}, State.loadWords b a xs s = .done () t →
      State.loadWords b a (xs ++ ys) s = State.loadWords b (a + 2 * xs.length) ys t := by
  induction xs with
  | nil =>
    intro a s t h
    cases h
    rfl
  | cons w xs ih =>
    intro a s t h
    rw [State.loadWords_cons'] at h
    rw [List.cons_append, State.loadWords_cons', List.length_cons,
      show a + 2 * (xs.length + 1) = a + 2 + 2 * xs.length by omega]
    cases hword : s.loadWord b a w with
    | done v u =>
      rw [hword, Access.done_bind] at h
      rw [Access.done_bind, ih h]
    | raised k n u =>
      rw [hword, Access.raised_bind] at h
      cases h

/-- A program that does not fit has a first word that does not lie inside memory. -/
theorem exists_first_outside {ws : List Word} : ∀ {a : Nat}, ws ≠ [] →
    Config.memSize < a + 2 * ws.length →
    ∃ xs w ys, ws = xs ++ w :: ys ∧ FitsFrom a xs ∧ ¬ a + 2 * xs.length + 1 < Config.memSize ∧
      max 65536 (a + 2 * xs.length) = max 65536 a := by
  induction ws with
  | nil => exact fun h => absurd rfl h
  | cons w ws ih =>
    intro a _ hlong
    rw [List.length_cons] at hlong
    by_cases ha : a + 1 < Config.memSize
    · have hne : ws ≠ [] := by
        rintro rfl
        rw [List.length_nil] at hlong
        omega
      obtain ⟨xs, w', ys, rfl, hfit, hout, hmax⟩ := ih (a := a + 2) hne (by omega)
      refine ⟨w :: xs, w', ys, rfl, fun i hi => ?_, ?_, ?_⟩
      · cases i with
        | zero => exact ha
        | succ i =>
          rw [show a + 2 * (i + 1) = a + 2 + 2 * i by omega]
          exact hfit i (Nat.lt_of_succ_lt_succ hi)
      · rw [List.length_cons]
        omega
      · rw [List.length_cons, show a + 2 * (xs.length + 1) = a + 2 + 2 * xs.length by omega, hmax]
        change a + 1 < 65536 at ha
        omega
    · exact ⟨[], w, ws, rfl, fun _ hi => absurd hi (Nat.not_lt_zero _), ha, rfl⟩

/-- A program that does not fit raises at its first word that does not lie inside memory, the words
before it written. -/
theorem State.loadWords_raises (b : Bool) {xs ys : List Word} {w : Word} {a : Nat} {s : State}
    (hm : s.mem.wf = true) (hfit : FitsFrom a xs)
    (hout : ¬ a + 2 * xs.length + 1 < Config.memSize) :
    ∃ t, State.loadWords b a (xs ++ w :: ys) s =
        .raised .addressOutOfRange (max 65536 (a + 2 * xs.length)) t ∧
      LoadsTo b ((s.mem.writeWords a xs).writeLast b (a + 2 * xs.length) w) s t := by
  obtain ⟨u, hwords, hu⟩ := State.loadWords_fits b hm hfit
  have hum : u.mem = s.mem.writeWords a xs := hu.same.mem
  obtain ⟨t, hword, ht⟩ :=
    State.loadWord_raises b (s := u) (by rw [hum]; exact Memory.wf_writeWords hm hfit) hout w
  rw [hum] at ht
  refine ⟨t, ?_, hu.trans ht⟩
  rw [State.loadWords_append b hwords, State.loadWords_cons', hword, Access.raised_bind]

theorem State.loadProgramVia_of_done {b : Bool} {ws : List Word} {s t : State}
    (h : State.loadWords b s.loadAddress ws s = .done () t) : s.loadProgramVia b ws = t := by
  unfold State.loadProgramVia
  rw [h]

theorem State.loadProgramVia_of_raised {b : Bool} {ws : List Word} {s t : State} {k : FaultKind}
    {n : Nat} (h : State.loadWords b s.loadAddress ws s = .raised k n t) :
    s.loadProgramVia b ws = t.takeFault k n := by
  unfold State.loadProgramVia
  rw [h]

theorem State.loadProgramVia_fits (b : Bool) {ws : List Word} {s : State} (hm : s.mem.wf = true)
    (hfit : FitsFrom s.loadAddress ws) :
    LoadsTo b (s.mem.writeWords s.loadAddress ws) s (s.loadProgramVia b ws) := by
  obtain ⟨t, hwords, ht⟩ := State.loadWords_fits b hm hfit
  rwa [State.loadProgramVia_of_done hwords]

/-! ### The counts of a cached load (70_reset_and_hazards.md R171) -/

/-- Every block that the Cache holds starts below `p`. -/
def State.HoldsBelow (s : State) (p : Nat) : Prop :=
  ∀ i : Fin Config.numLines, (s.lines[i]).valid = true →
    ((s.lines[i]).tag * Config.numLines + i) * Config.blockSize < p

theorem State.HoldsBelow.not_hit {s : State} {a : Nat} (h : s.HoldsBelow a)
    (ha : blockBase a = a) : s.isHit a = false := by
  by_contra hhit
  obtain ⟨hvalid, htag⟩ := (s.isHit_iff a).1 (by simpa using hhit)
  have hbelow := h (blockIndex a) hvalid
  change ((s.lineOf a).tag * _ + _) * _ < a at hbelow
  rw [htag, blockBase_of_tag, ha] at hbelow
  exact Nat.lt_irrefl a hbelow

theorem State.cacheUpdateByte_otherLines (s : State) (a : Nat) (v : Byte)
    {i : Fin Config.numLines} (hi : i ≠ blockIndex a) :
    (s.cacheUpdateByte a v).lines[i] = s.lines[i] := by
  unfold State.cacheUpdateByte
  split
  · exact s.countHit.getElem_setLine_ne hi _
  · exact s.countMiss.getElem_setLine_ne hi _

/-- The next byte of a load fills no block above its own. -/
theorem State.HoldsBelow.cacheWriteByte {s : State} {a : Nat} (h : s.HoldsBelow a)
    (ha : inRange a) (v : Byte) :
    ∃ t, s.cacheWriteByte a v = .done () t ∧ CountsAccess s a t ∧ t.HoldsBelow (a + 1) ∧
      t.isHit a = true := by
  have hcounts := s.cacheWriteByte_countsAccess ha v
  have hwrite := s.cacheWriteByte_inRange ha v
  have hhit := ((s.setMem (s.mem.write a v)).cacheUpdateByte_line a v).1
  have hother := fun i => (s.setMem (s.mem.write a v)).cacheUpdateByte_otherLines a v (i := i)
  rw [hwrite] at hcounts
  refine ⟨_, hwrite, hcounts, fun i hi => ?_, hhit⟩
  by_cases hindex : i = blockIndex a
  · subst hindex
    have htag := ((State.isHit_iff _ a).1 hhit).2
    have hbase := blockBase_add_offset a
    change (((State.cacheUpdateByte _ a v).lineOf a).tag * _ + _) * _ < a + 1
    rw [htag, blockBase_of_tag]
    omega
  · rw [hother i hindex] at hi ⊢
    exact Nat.lt_succ_of_lt (h i hi)

/-- Two addresses of one block hit together. -/
theorem State.isHit_congr (s : State) {a c : Nat} (h : a / 2 = c / 2) : s.isHit a = s.isHit c := by
  obtain ⟨hindex, htag⟩ := (block_eq_iff a c).1 h
  unfold State.isHit State.lineOf
  rw [htag]
  simp only [hindex]

/-- The next word of a load: its two byte writes, with the state between them. -/
theorem State.HoldsBelow.cacheWriteWord {s : State} {a : Nat} (h : s.HoldsBelow a)
    (ha : a + 1 < Config.memSize) (w : Word) :
    ∃ u t, s.cacheWriteWord a w = .done () t ∧ CountsAccess s a u ∧ CountsAccess u (a + 1) t ∧
      u.isHit a = true ∧ u.HoldsBelow (a + 1) ∧ t.HoldsBelow (a + 2) ∧ t.isHit (a + 1) = true := by
  obtain ⟨u, hlo, hcu, hu, huhit⟩ := h.cacheWriteByte (Nat.lt_of_succ_lt ha) (lowByte w)
  obtain ⟨t, hhi, hct, ht, hthit⟩ := hu.cacheWriteByte ha (highByte w)
  refine ⟨u, t, ?_, hcu, hct, huhit, hu, ht, hthit⟩
  rw [State.cacheWriteWord, hlo, Access.done_bind, hhi]

/-- The load has come to `p`: the Cache holds no block that starts there or above, and when `p` is
the second byte of a block, the byte before it has brought the block in. -/
structure State.LoadedUpTo (s : State) (p : Nat) : Prop where
  holdsBelow : s.HoldsBelow p
  hit : p % 2 = 1 → s.isHit p = true

/-- Each word after that counts one miss, for the block it begins, and one hit. -/
theorem State.LoadedUpTo.cacheWriteWord {s : State} {a : Nat} (h : s.LoadedUpTo a)
    (ha : a + 1 < Config.memSize) (w : Word) :
    ∃ t, s.cacheWriteWord a w = .done () t ∧ t.LoadedUpTo (a + 2) ∧
      t.hits = s.hits + 1 ∧ t.misses = s.misses + 1 := by
  obtain ⟨u, t, hwrite, hcu, hct, huhit, hu, ht, hthit⟩ := h.holdsBelow.cacheWriteWord ha w
  refine ⟨t, hwrite, ⟨ht, fun hodd => ?_⟩, ?_⟩
  · rw [← t.isHit_congr (a := a + 1) (c := a + 2) (by omega)]
    exact hthit
  · rw [hct.hits, hct.misses, hcu.hits, hcu.misses]
    rcases Nat.mod_two_eq_zero_or_one a with heven | hodd
    · have hmiss : s.isHit a = false := h.holdsBelow.not_hit (by rw [blockBase_eq]; omega)
      have hhit : u.isHit (a + 1) = true := by
        rw [← u.isHit_congr (a := a) (by omega)]
        exact huhit
      simp [hmiss, hhit]
    · have hhit : s.isHit a = true := h.hit hodd
      have hmiss : u.isHit (a + 1) = false := hu.not_hit (by rw [blockBase_eq]; omega)
      simp [hmiss, hhit]

/-- The rest of a load that has come to `a` counts a hit and a miss for each word. -/
theorem State.LoadedUpTo.loadWords {ws : List Word} :
    ∀ {s : State} {a : Nat}, s.LoadedUpTo a → FitsFrom a ws →
      ∃ t, State.loadWords true a ws s = .done () t ∧ t.hits = s.hits + ws.length ∧
        t.misses = s.misses + ws.length := by
  induction ws with
  | nil => exact fun _ _ => ⟨_, rfl, rfl, rfl⟩
  | cons w ws ih =>
    intro s a h hfit
    obtain ⟨u, hword, hu, hhits, hmisses⟩ := h.cacheWriteWord hfit.head w
    obtain ⟨t, hwords, hhits', hmisses'⟩ := ih hu hfit.tail
    refine ⟨t, ?_, ?_, ?_⟩
    · rw [State.loadWords_cons', State.loadWord, if_pos rfl, hword, Access.done_bind, hwords]
    · rw [hhits', hhits, List.length_cons]
      omega
    · rw [hmisses', hmisses, List.length_cons]
      omega

theorem State.isHit_construct (la ip : Nat) (m : Memory) (a : Nat) :
    (State.construct la ip m).isHit a = false :=
  State.isHit_of_invalid (State.construct_invalid la ip m (blockIndex a))

theorem State.holdsBelow_construct (la ip : Nat) (m : Memory) (p : Nat) :
    (State.construct la ip m).HoldsBelow p := by
  intro i hi
  rw [State.construct_invalid] at hi
  cases hi

/-- The first word of a load at an odd address misses in both of its blocks. -/
theorem State.construct_cacheWriteWord_odd (la ip : Nat) (m : Memory) (hodd : la % 2 = 1)
    (ha : la + 1 < Config.memSize) (w : Word) :
    ∃ t, (State.construct la ip m).cacheWriteWord la w = .done () t ∧ t.LoadedUpTo (la + 2) ∧
      t.hits = 0 ∧ t.misses = 2 := by
  obtain ⟨u, t, hwrite, hcu, hct, -, hu, ht, hthit⟩ :=
    (State.holdsBelow_construct la ip m la).cacheWriteWord ha w
  have hmiss : u.isHit (la + 1) = false := hu.not_hit (by rw [blockBase_eq]; omega)
  refine ⟨t, hwrite, ⟨ht, fun _ => ?_⟩, ?_⟩
  · rw [← t.isHit_congr (a := la + 1) (by omega)]
    exact hthit
  · rw [hct.hits, hct.misses, hcu.hits, hcu.misses, hmiss, State.isHit_construct]
    exact ⟨rfl, rfl⟩

end Sys2Proof.Machine

/-! ### The statements about placing a word and about the program load
(70_reset_and_hazards.md R171, R172) -/

namespace Sys2Proof.Proofs

open Sys2Proof.Machine

/-- Settles O29: placing keeps the Cache transparent, so the fetch gives the word placed. -/
theorem placedWordIsRunNext : Obligations.PlacedWordIsRunNext := by
  intro s w hs hr hpc
  rw [State.withFetchWord_eq]
  have hframe := s.placeWord_frame hpc w
  have hplacedPc : (s.placeWord s.pc w).pc = s.pc := hframe.pc
  have hi : InstrAtPc (s.placeWord s.pc w) (decodeWord w) := by
    rw [instrAtPc_iff, hplacedPc, State.wordAt_write hs.memWf hpc hframe.mem]
    exact ⟨hpc, rfl⟩
  refine ⟨?_, s.placeWord_accesses s.pc w, ?_, fun a ha ha' => ?_⟩
  · obtain ⟨u, hstep, hsame, -, -⟩ :=
      (hs.transparent.placeWord hs.memWf s.pc w).step_instrAtPc (hframe.control.run.trans hr) hi
    exact ⟨u, hstep, hsame⟩
  · rw [State.placeWord, State.placeByte_restore, State.placeByte_restore]
  · rw [hframe.mem, State.setMem_mem, Memory.read_write_ne ha', Memory.read_write_ne ha]

/-- Settles O49: memory after the load is memory with the words written, whichever way they go. -/
theorem programLoadWritesTheWords : Obligations.ProgramLoadWritesTheWords := by
  intro b ws s hs hle
  have hfit := fitsFrom_of_le hle
  have hload := State.loadProgramVia_fits b hs.memWf hfit
  have hmem : (s.loadProgramVia b ws).mem = s.mem.writeWords s.loadAddress ws := hload.same.mem
  have hmem' : (s.loadProgram ws).mem = s.mem.writeWords s.loadAddress ws :=
    (State.loadProgramVia_fits Config.loadViaCache hs.memWf hfit).same.mem
  refine ⟨fun i => ?_, fun a ha => ?_, hload.same.pc, hload.same.ac, hload.same.flag,
    hload.same.control.of_setMem, hload.legal hs (Memory.wf_writeWords hs.memWf hfit), hload.cache,
    hmem'.trans hmem.symm⟩
  · obtain ⟨hlo, hhi⟩ := Memory.read_writeWords hs.memWf hfit i i.isLt
    exact State.wordAt_of_read (by rw [hmem, hlo]; rfl) (by rw [hmem, hhi]; rfl)
  · rw [hmem, Memory.read_writeWords_outside ha]

/-- Settles O51: the load raises at the first word that does not lie inside memory; memory is then
memory with the words before it written and perhaps the byte at 65535. -/
theorem tooLongProgramFaultsTheLoad : Obligations.TooLongProgramFaultsTheLoad := by
  intro b ws s hs hne hlong
  obtain ⟨xs, w, ys, rfl, hfit, hout, hmax⟩ := exists_first_outside hne hlong
  obtain ⟨t, hwords, hload⟩ := State.loadWords_raises b (w := w) (ys := ys) hs.memWf hfit hout
  have hm := Memory.wf_writeWords hs.memWf hfit
  have hmem : t.mem = (s.mem.writeWords s.loadAddress xs).writeLast b
      (s.loadAddress + 2 * xs.length) w := hload.same.mem
  have hkeep : ∀ c, c < s.loadAddress + 2 * xs.length →
      t.mem.read c = (s.mem.writeWords s.loadAddress xs).read c := by
    intro c hc
    rw [hmem]
    exact Memory.read_writeLast_ne _ _ _ _ (by omega)
  have hsize : Config.memSize = 65536 := rfl
  rw [State.loadProgramVia_of_raised hwords, hmax]
  refine ⟨hload.same.raises _ _, fun i hi => ?_, fun i hi => ?_, fun a ha => ?_,
    fun hb => (hload.cache hb).takeFault _ _, fun hb => ?_, step_of_faulted rfl⟩
  · have hix : (i : Nat) < xs.length := by omega
    have hword : (xs ++ w :: ys)[i] = xs[(i : Nat)] := List.getElem_append_left hix
    obtain ⟨hlo, hhi⟩ := Memory.read_writeWords hs.memWf hfit i hix
    rw [hword]
    refine State.wordAt_of_read ?_ ?_
    · rw [State.takeFault_mem, hkeep _ (by omega), hlo]
    · rw [State.takeFault_mem, hkeep _ (by omega), hhi]
  · have hix : (i : Nat) = xs.length := by
      by_contra hne
      have := hfit i
      omega
    have hword : (xs ++ w :: ys)[i] = w := by
      rw [Fin.getElem_fin, List.getElem_append_right hix.ge]
      simp [hix]
    rw [hix] at hi
    rw [hword, State.takeFault_mem, hmem, hi, Memory.read_writeLast hm,
      Memory.read_writeWords_outside (.inr hi.le)]
    rfl
  · rcases ha with ha | ha
    · rw [State.takeFault_mem, hkeep a (by omega), Memory.read_writeWords_outside (.inl ha)]
    · have htm := Memory.wf_writeLast b hm (s.loadAddress + 2 * xs.length) w
      rw [State.takeFault_mem, hmem, Memory.read_above ha htm, Memory.read_above ha hs.memWf]
  · exact (hload.legal hs (Memory.wf_writeLast b hm _ w) hb).takeFault
      (FaultRecord.legal_addressOutOfRange _)

/-- Settles O50: from an even address every word begins one block; from an odd one the first word
begins two and every other word one. -/
theorem cachedLoadCounts : Obligations.CachedLoadCounts := by
  intro ws la ip m _ hne hle
  have hfit := fitsFrom_of_le hle
  constructor
  · intro heven
    have hstart : (State.construct la ip m).LoadedUpTo la :=
      ⟨State.holdsBelow_construct la ip m la, fun hodd => by omega⟩
    obtain ⟨t, hwords, hhits, hmisses⟩ := hstart.loadWords hfit
    rw [State.loadProgramVia_of_done hwords, hhits, hmisses]
    exact ⟨Nat.zero_add _, Nat.zero_add _⟩
  · intro hodd
    cases ws with
    | nil => exact absurd rfl hne
    | cons w ws =>
      obtain ⟨u, hword, hu, hhits, hmisses⟩ :=
        State.construct_cacheWriteWord_odd la ip m hodd hfit.head w
      obtain ⟨t, hwords, hhits', hmisses'⟩ := hu.loadWords hfit.tail
      have hload : State.loadWords true la (w :: ws) (State.construct la ip m) = .done () t := by
        rw [State.loadWords_cons', State.loadWord, if_pos rfl, hword, Access.done_bind, hwords]
      rw [State.loadProgramVia_of_done hload, hhits', hmisses', hhits, hmisses, List.length_cons]
      omega

end Sys2Proof.Proofs
